-- ==== Sys2Proof/Word.lean ====
section
/-! DEFINITION. The word and the byte of the machine (00_scope.md R6: every register, cell, stack
entry and the program counter is 16 bits wide; 47_io.md R172: the output port carries 8 bits).
The 16-bit width is the spec's decision D1 (assumption log 3, DESIGN CHOICE). -/

namespace Sys2Proof

/-- A 16-bit word (R6). The document's capital-W "Word", 0 to 32767, is a property, not a width (C3). -/
abbrev Word := BitVec 16

/-- An 8-bit value: one byte of an image (R246) or of the output stream (R172). -/
abbrev Byte := BitVec 8

end Sys2Proof
end

