-- ==== Sys2Proof/Config.lean ====
section
/-! DEFINITION. What is fixed for one machine: the two parameters of 00_scope.md R7 that the engine
itself depends on. The other two, IMAGE and INPUT, are arguments of the reset. The parameters are
held in State (field `params`, changed by no step), so that a statement about every state is a
statement about every value of the parameters (assumption logs 8 and 18). -/

namespace Sys2Proof.Config

/-- The parameters of R7. -/
structure Params where
  /-- STACK_DEPTH: the most entries the stack holds; `none` is `unbounded`. -/
  stackDepth : Option Nat
  /-- DEBUG_PORT: whether the host makes debug accesses at all. -/
  debugPort : Bool
  deriving DecidableEq, Repr

/-- The defaults R7 suggests: an unbounded stack and a free-running program.
DESIGN CHOICE, unsafe (assumption logs 8 and 18): a real stack may have a limit. -/
def Params.suggested : Params := { stackDepth := none, debugPort := false }

end Sys2Proof.Config
end

