-- ==== Sys2Proof/Syntax.lean ====
section
/-! DEFINITION. The instructions: one constructor per row of spec/opcode_table.json, in the table's
order, operands in the order of 30_encoding.md R81. -/

namespace Sys2Proof

/-- A register name, r0 to r7 (10_state.md R20). Also a destination operand: R76 admits nothing else. -/
abbrev Reg := Fin 8

/-- A value operand (R75): a literal, or a register whose content is the value. -/
inductive Operand where
  /-- A literal; well formed only for 0 to 32767 (R75, R90). -/
  | lit (n : Word)
  /-- The content of a register (operand words 32768 to 32775). -/
  | reg (r : Reg)
  deriving DecidableEq, Repr

/-- The 22 instructions of R80. -/
inductive Instr where
  /-- opcode 0, R100 -/
  | halt
  /-- opcode 1, R110 -/
  | set (dst : Reg) (val : Operand)
  /-- opcode 2, R111 -/
  | push (val : Operand)
  /-- opcode 3, R112 -/
  | pop (dst : Reg)
  /-- opcode 4, R120 -/
  | eq (dst : Reg) (a b : Operand)
  /-- opcode 5, R121 -/
  | gt (dst : Reg) (a b : Operand)
  /-- opcode 6, R130 -/
  | jmp (val : Operand)
  /-- opcode 7, R131 -/
  | jt (a val : Operand)
  /-- opcode 8, R132 -/
  | jf (a val : Operand)
  /-- opcode 9, R141 -/
  | add (dst : Reg) (a b : Operand)
  /-- opcode 10, R142 -/
  | mult (dst : Reg) (a b : Operand)
  /-- opcode 11, R143 -/
  | mod (dst : Reg) (a b : Operand)
  /-- opcode 12, R144 -/
  | and (dst : Reg) (a b : Operand)
  /-- opcode 13, R145 -/
  | or (dst : Reg) (a b : Operand)
  /-- opcode 14, R146 -/
  | not (dst : Reg) (a : Operand)
  /-- opcode 15, R150 -/
  | rmem (dst : Reg) (addr : Operand)
  /-- opcode 16, R151: the address is a value operand (R81, D21, assumption log 22). -/
  | wmem (addr val : Operand)
  /-- opcode 17, R160 -/
  | call (val : Operand)
  /-- opcode 18, R161 -/
  | ret
  /-- opcode 19, R170 -/
  | out (val : Operand)
  /-- opcode 20, R171; the mnemonic `in` is a word of Lean. -/
  | inp (dst : Reg)
  /-- opcode 21, R101 -/
  | noop
  deriving DecidableEq, Repr

end Sys2Proof
end

