-- ==== Sys2Proof/WellFormed.lean ====
section
/-! DEFINITION. Which terms of Instr are instructions of the ISA. The only check: a literal is
0 to 32767 (30_encoding.md R75, R90). Destinations need none: `Reg` holds r0 to r7 and nothing else. -/

namespace Sys2Proof

/-- R90: "The only immediates are literal value operands: 15 bits, 0 to 32767". -/
def Operand.wellFormed : Operand → Bool
  | .lit n => decide (n.toNat ≤ 32767)
  | .reg _ => true

/-- Every value operand is well formed. -/
def Instr.wellFormed : Instr → Bool
  | .halt => true
  | .set _ v => v.wellFormed
  | .push v => v.wellFormed
  | .pop _ => true
  | .eq _ a b => a.wellFormed && b.wellFormed
  | .gt _ a b => a.wellFormed && b.wellFormed
  | .jmp v => v.wellFormed
  | .jt a v => a.wellFormed && v.wellFormed
  | .jf a v => a.wellFormed && v.wellFormed
  | .add _ a b => a.wellFormed && b.wellFormed
  | .mult _ a b => a.wellFormed && b.wellFormed
  | .mod _ a b => a.wellFormed && b.wellFormed
  | .and _ a b => a.wellFormed && b.wellFormed
  | .or _ a b => a.wellFormed && b.wellFormed
  | .not _ a => a.wellFormed
  | .rmem _ a => a.wellFormed
  | .wmem a v => a.wellFormed && v.wellFormed
  | .call v => v.wellFormed
  | .ret => true
  | .out v => v.wellFormed
  | .inp _ => true
  | .noop => true

end Sys2Proof
end

