-- ==== Sys2Proof/Decode.lean ====
section
/-! DEFINITION. Decoding (30_encoding.md R70 to R90), total on any words and on any bytes, and the
encoder. The decoder is given the words that stand in memory from the program counter on (fewer
than the instruction needs where memory ends) and makes its checks in the order of the step, R78:
each operand word is fetched and checked before the next one is fetched. -/

namespace Sys2Proof

/-! ## Bytes and words of an image -/

/-- R54: `byte[2k] + 256 * byte[2k + 1]`, the low byte first. -/
def wordOfBytes (lo hi : Byte) : Word := BitVec.ofNat 16 (lo.toNat + 256 * hi.toNat)

/-- The low 8 bits of a word, `w[7:0]`. -/
def lowByte (w : Word) : Byte := BitVec.ofNat 8 (w.toNat % 256)

/-- The high 8 bits of a word, `w[15:8]`. -/
def highByte (w : Word) : Byte := BitVec.ofNat 8 (w.toNat / 256)

/-- The words of a byte sequence (R246). A last byte without a partner makes no word. -/
def wordsOfBytes : List Byte → List Word
  | lo :: hi :: bs => wordOfBytes lo hi :: wordsOfBytes bs
  | _ => []

/-- The bytes of a word sequence, low byte first (R89). -/
def bytesOfWords : List Word → List Byte
  | [] => []
  | w :: ws => lowByte w :: highByte w :: bytesOfWords ws

/-! ## Operand words -/

/-- R75: the operand a value operand word stands for; none for 32776 to 65535. -/
def Operand.ofWord? (w : Word) : Option Operand :=
  if w.toNat ≤ 32767 then some (.lit w)
  else if h : w.toNat - 32768 < 8 then some (.reg ⟨w.toNat - 32768, h⟩)
  else none

/-- R76: the register a destination operand word names; none outside 32768 to 32775. -/
def Reg.ofWord? (w : Word) : Option Reg :=
  if w.toNat ≤ 32767 then none
  else if h : w.toNat - 32768 < 8 then some ⟨w.toNat - 32768, h⟩
  else none

/-- The operand word of a register, 32768 + N (R89). -/
def Reg.word (r : Reg) : Word := BitVec.ofNat 16 (32768 + r.val)

/-- The operand word of a value operand (R89). -/
def Operand.word : Operand → Word
  | .lit n => n
  | .reg r => Reg.word r

/-! ## The decoder -/

/-- Why a word sequence is not an instruction. Each reason is the fatal error of the same name. -/
inductive DecodeError where
  /-- The word number `k` of the instruction (the opcode word is number 0) is not there: it would be
  above address 32767. The step raises FETCH_ADDR (R77). -/
  | truncated (k : Nat)
  /-- The opcode word is 22 to 65535 (R82). -/
  | badOpcode (w : Word)
  /-- A value operand word is 32776 to 65535 (R83). -/
  | badOperand (w : Word)
  /-- A destination operand word is not 32768 to 32775 (R83). -/
  | badDest (w : Word)
  deriving DecidableEq, Repr

/-- What the decoder answers: an instruction and the words after it, or the reason there is none. -/
inductive Decoded where
  | instr (i : Instr) (rest : List Word)
  | rejected (e : DecodeError)
  deriving DecidableEq, Repr

/-- Read word `k` of the instruction as a destination operand (R76, checked as it is fetched, R78). -/
def takeDst (k : Nat) (ws : List Word) (f : Reg → List Word → Decoded) : Decoded :=
  match ws with
  | [] => .rejected (.truncated k)
  | w :: ws =>
    match Reg.ofWord? w with
    | none => .rejected (.badDest w)
    | some r => f r ws

/-- Read word `k` of the instruction as a value operand (R75, checked as it is fetched, R78). -/
def takeVal (k : Nat) (ws : List Word) (f : Operand → List Word → Decoded) : Decoded :=
  match ws with
  | [] => .rejected (.truncated k)
  | w :: ws =>
    match Operand.ofWord? w with
    | none => .rejected (.badOperand w)
    | some o => f o ws

/-- Format FV of R73. -/
def decodeFV (ws : List Word) (mk : Operand → Instr) : Decoded :=
  takeVal 1 ws fun v ws => .instr (mk v) ws

/-- Format FD of R73. -/
def decodeFD (ws : List Word) (mk : Reg → Instr) : Decoded :=
  takeDst 1 ws fun d ws => .instr (mk d) ws

/-- Format FDV of R73. -/
def decodeFDV (ws : List Word) (mk : Reg → Operand → Instr) : Decoded :=
  takeDst 1 ws fun d ws => takeVal 2 ws fun v ws => .instr (mk d v) ws

/-- Format FVV of R73. -/
def decodeFVV (ws : List Word) (mk : Operand → Operand → Instr) : Decoded :=
  takeVal 1 ws fun a ws => takeVal 2 ws fun b ws => .instr (mk a b) ws

/-- Format FDVV of R73. -/
def decodeFDVV (ws : List Word) (mk : Reg → Operand → Operand → Instr) : Decoded :=
  takeDst 1 ws fun d ws => takeVal 2 ws fun a ws => takeVal 3 ws fun b ws => .instr (mk d a b) ws

/-- The words after an opcode word, by the opcode map of R80. The opcode word is compared whole and
never resolved (R74). -/
def decodeOp (op : Word) (ws : List Word) : Decoded :=
  match op.toNat with
  | 0 => .instr .halt ws
  | 1 => decodeFDV ws .set
  | 2 => decodeFV ws .push
  | 3 => decodeFD ws .pop
  | 4 => decodeFDVV ws .eq
  | 5 => decodeFDVV ws .gt
  | 6 => decodeFV ws .jmp
  | 7 => decodeFVV ws .jt
  | 8 => decodeFVV ws .jf
  | 9 => decodeFDVV ws .add
  | 10 => decodeFDVV ws .mult
  | 11 => decodeFDVV ws .mod
  | 12 => decodeFDVV ws .and
  | 13 => decodeFDVV ws .or
  | 14 => decodeFDV ws .not
  | 15 => decodeFDV ws .rmem
  | 16 => decodeFVV ws .wmem
  | 17 => decodeFV ws .call
  | 18 => .instr .ret ws
  | 19 => decodeFV ws .out
  | 20 => decodeFD ws .inp
  | 21 => .instr .noop ws
  | _ => .rejected (.badOpcode op)

/-- Decode the instruction at the head of a word sequence; total (R86). -/
def decode : List Word → Decoded
  | [] => .rejected (.truncated 0)
  | op :: ws => decodeOp op ws

/-- Decode from bytes in image order (R54); total on any bytes. -/
def decodeBytes (bs : List Byte) : Decoded := decode (wordsOfBytes bs)

/-! ## Lengths -/

/-- Instruction length in words from the opcode word alone (R72, R79). For a word that is no opcode
the length 1 of R85, used by the debug port's reading of code (R221) only. -/
def lengthOf (op : Word) : Nat :=
  match op.toNat with
  | 0 => 1
  | 1 => 3
  | 2 => 2
  | 3 => 2
  | 4 => 4
  | 5 => 4
  | 6 => 2
  | 7 => 3
  | 8 => 3
  | 9 => 4
  | 10 => 4
  | 11 => 4
  | 12 => 4
  | 13 => 4
  | 14 => 3
  | 15 => 3
  | 16 => 3
  | 17 => 2
  | 18 => 1
  | 19 => 2
  | 20 => 2
  | 21 => 1
  | _ => 1

/-! ## The encoder -/

/-- The opcode number, word 0 of R80. -/
def Instr.opcode : Instr → Word
  | .halt => 0
  | .set _ _ => 1
  | .push _ => 2
  | .pop _ => 3
  | .eq _ _ _ => 4
  | .gt _ _ _ => 5
  | .jmp _ => 6
  | .jt _ _ => 7
  | .jf _ _ => 8
  | .add _ _ _ => 9
  | .mult _ _ _ => 10
  | .mod _ _ _ => 11
  | .and _ _ _ => 12
  | .or _ _ _ => 13
  | .not _ _ => 14
  | .rmem _ _ => 15
  | .wmem _ _ => 16
  | .call _ => 17
  | .ret => 18
  | .out _ => 19
  | .inp _ => 20
  | .noop => 21

/-- The operand words in operand order (R71, R81). -/
def Instr.operandWords : Instr → List Word
  | .halt => []
  | .set d v => [Reg.word d, v.word]
  | .push v => [v.word]
  | .pop d => [Reg.word d]
  | .eq d a b => [Reg.word d, a.word, b.word]
  | .gt d a b => [Reg.word d, a.word, b.word]
  | .jmp v => [v.word]
  | .jt a v => [a.word, v.word]
  | .jf a v => [a.word, v.word]
  | .add d a b => [Reg.word d, a.word, b.word]
  | .mult d a b => [Reg.word d, a.word, b.word]
  | .mod d a b => [Reg.word d, a.word, b.word]
  | .and d a b => [Reg.word d, a.word, b.word]
  | .or d a b => [Reg.word d, a.word, b.word]
  | .not d a => [Reg.word d, a.word]
  | .rmem d a => [Reg.word d, a.word]
  | .wmem a v => [a.word, v.word]
  | .call v => [v.word]
  | .ret => []
  | .out v => [v.word]
  | .inp d => [Reg.word d]
  | .noop => []

/-- The words of an instruction (R71, R89). -/
def encode (i : Instr) : List Word := i.opcode :: i.operandWords

/-! ## The host's view of a table word -/

/-- The four words of an instruction whose first `nbits` bits are those of `w`, bit 0 the least
significant bit of the first word, and whose further bits are 0. -/
def tableWords (nbits w : Nat) : List Word :=
  let v := w % 2 ^ nbits
  [BitVec.ofNat 16 v, BitVec.ofNat 16 (v / 2 ^ 16), BitVec.ofNat 16 (v / 2 ^ 32),
    BitVec.ofNat 16 (v / 2 ^ 48)]

/-- The instruction the decoder reads from those words, through their bytes in image order. An
instruction with a destination operand whose word is given no bits has destination word 0, which
is BAD_DEST (R76), and so answers none. -/
def decodeTableWord (nbits w : Nat) : Option Instr :=
  match decodeBytes (bytesOfWords (tableWords nbits w)) with
  | .instr i _ => some i
  | .rejected _ => none

end Sys2Proof
end

