-- ==== Sys2Proof/Machine/State.lean ====
section
/-! DEFINITION. Everything the spec gives the machine, as plain data (10_state.md R20 to R39), the
reset state, and the reasons a step could stop. The operations on it are in Machine/Ops.lean. -/

namespace Sys2Proof.Machine

/-- The register file x[0] to x[7] (10_state.md R20), 16 bits each, all alike. -/
structure RegFile where
  r0 : Word
  r1 : Word
  r2 : Word
  r3 : Word
  r4 : Word
  r5 : Word
  r6 : Word
  r7 : Word
  deriving DecidableEq, Repr

/-- The memory array (10_state.md R32), held sparsely in the order of the image (20_memory.md R54):
byte key 2k is the low byte of cell k and byte key 2k + 1 its high byte. An unlisted byte reads as
`Memory.unlisted`. Canonical form: `Memory.wf` (Machine/Ops.lean). The engine itself addresses
whole cells only (R50); the byte keys are the representation (assumption log 1). -/
abbrev Memory := List Host.Cell

/-- The four statuses of 10_state.md R29. -/
inductive Status where
  | running
  | awaitingInput
  | halted
  | fatal
  deriving DecidableEq, Repr

/-- The causes of 60_exceptions.md R201, in the order of their codes; `none` is code 0. -/
inductive Cause where
  | none
  | badOpcode
  | badOperand
  | badDest
  | stackEmpty
  | divZero
  | memAddr
  | fetchAddr
  | stackFull
  | inputClosed
  deriving DecidableEq, Repr

/-- The fault record of 10_state.md R30. -/
structure FaultRecord where
  /-- fault_cause -/
  cause : Cause
  /-- fault_pc: the address of the opcode word of the instruction that raised it -/
  pc : Word
  /-- fault_word: the offending word, named per cause in R201 -/
  word : Word
  deriving DecidableEq, Repr

/-- The state of the machine at an instruction boundary, with the environment state the instruction
rules refer to (10_state.md R37) and the parameters (00_scope.md R7). -/
structure State where
  /-- R20 -/
  regs : RegFile
  /-- R23 -/
  pc : Word
  /-- R25; the head is the top (assumption log 32) -/
  stack : List Word
  /-- R32 -/
  mem : Memory
  /-- R29 -/
  status : Status
  /-- R30 -/
  fault : FaultRecord
  /-- R37, R172: the output stream, oldest first -/
  output : List Byte
  /-- R37, R174: the input supply, the front first -/
  input : List Word
  /-- R174, R175: the environment reports the input source closed -/
  inputClosed : Bool
  /-- R7: STACK_DEPTH and DEBUG_PORT; no step and no environment move changes them -/
  params : Config.Params
  deriving DecidableEq, Repr

/-- The registers after reset: 0 (10_state.md R39, D10; assumption log 12, DESIGN CHOICE, unsafe). -/
def RegFile.zero : RegFile := { r0 := 0, r1 := 0, r2 := 0, r3 := 0, r4 := 0, r5 := 0, r6 := 0, r7 := 0 }

/-- The state right after reset with the empty image and the empty, open input supply (10_state.md
R39; 70_reset_and_hazards.md R241). Every cell reads 0. The parameters are R7's suggested defaults
(assumption logs 8 and 18). A reset with an image is `State.boot` (Machine/Ops.lean). -/
def State.reset : State :=
  { regs := RegFile.zero
    pc := 0
    stack := []
    mem := []
    status := .running
    fault := { cause := .none, pc := 0, word := 0 }
    output := []
    input := []
    inputClosed := false
    params := Config.Params.suggested }

/-- Reasons a step stops without a next state. There is none: every abnormal condition of this
machine is a fatal error whose resulting state the spec gives (60_exceptions.md R200, R201, R205), so
it is a next state with status Fatal (assumption log 28; safe). -/
inductive Fault where
  deriving DecidableEq, Repr

/-- Reasons the model gives an instruction no meaning. -/
inductive Refusal where
  /-- Raised only by an arm of exec whose instruction has no meaning yet; no arm is left so. Safe. -/
  | notModelled (mnemonic : String)
  deriving DecidableEq, Repr

/-- What an instruction or a step answers. -/
abbrev Result := Host.Outcome State Fault Refusal

end Sys2Proof.Machine
end

