-- ==== Sys2Proof/Machine/Ops.lean ====
section
/-! DEFINITION. The named operations over memory, registers, the stack and the ports (00_scope.md R9's
primitives); taking a fatal error, the machine's only exception (60_exceptions.md R205), and beside
it the reset, the only way out of one (R207); fetching the words of an instruction. -/

namespace Sys2Proof.Machine

/-! ## Memory -/

/-- What an unlisted byte reads as: "unfilled memory defaults to 0" (70_reset_and_hazards.md R246). -/
def Memory.unlisted : Byte := 0

/-- The byte at a key. -/
def Memory.readByte : Memory → Nat → Byte
  | [], _ => Memory.unlisted
  | (k, b) :: m, a => if k = a then b else Memory.readByte m a

/-- Write a byte, keeping the canonical form. -/
def Memory.writeByte : Memory → Nat → Byte → Memory
  | [], a, v => if v = Memory.unlisted then [] else [(a, v)]
  | (k, b) :: m, a, v =>
    if a < k then (if v = Memory.unlisted then (k, b) :: m else (a, v) :: (k, b) :: m)
    else if a = k then (if v = Memory.unlisted then m else (a, v) :: m)
    else (k, b) :: Memory.writeByte m a v

/-- Keys strictly rising from `lo` on, below 65536 (32768 cells of two bytes, R32), and no entry equal
to what an unlisted byte reads as. -/
def Memory.wfFrom : Nat → Memory → Bool
  | _, [] => true
  | lo, (k, b) :: m =>
    decide (lo ≤ k) && decide (k < 65536) && decide (b ≠ Memory.unlisted) && Memory.wfFrom (k + 1) m

/-- The canonical form of memory. -/
def Memory.wf (m : Memory) : Bool := Memory.wfFrom 0 m

/-- `MemRead(a, 1)` for a cell address 0 to 32767 (20_memory.md R52): the whole 16-bit cell. -/
def Memory.readCell (m : Memory) (a : Nat) : Word :=
  wordOfBytes (m.readByte (2 * a)) (m.readByte (2 * a + 1))

/-- `MemWrite(a, 1, v)` for a cell address 0 to 32767 (20_memory.md R53): the whole 16-bit cell. -/
def Memory.writeCell (m : Memory) (a : Nat) (v : Word) : Memory :=
  (m.writeByte (2 * a) (lowByte v)).writeByte (2 * a + 1) (highByte v)

/-- The bytes of an image from key `k` on (R246). -/
def Memory.ofBytes : Nat → List Byte → Memory
  | _, [] => []
  | k, b :: bs =>
    if b = Memory.unlisted then Memory.ofBytes (k + 1) bs else (k, b) :: Memory.ofBytes (k + 1) bs

/-- Store words at consecutive cells from `a` on, as far as memory goes (address 32767). -/
def Memory.storeWords (m : Memory) : Nat → List Word → Memory
  | _, [] => m
  | a, w :: ws => if a ≤ 32767 then Memory.storeWords (m.writeCell a w) (a + 1) ws else m

/-- The words that stand at `a`, `a + 1`, … : at most `n` of them, and none above address 32767 (R77). -/
def Memory.wordsFrom (m : Memory) : Nat → Nat → List Word
  | 0, _ => []
  | n + 1, a => if a ≤ 32767 then m.readCell a :: Memory.wordsFrom m n (a + 1) else []

/-! ## Registers -/

/-- `x[r]` (10_state.md R20). -/
def RegFile.get (f : RegFile) (r : Reg) : Word :=
  match r.val with
  | 0 => f.r0
  | 1 => f.r1
  | 2 => f.r2
  | 3 => f.r3
  | 4 => f.r4
  | 5 => f.r5
  | 6 => f.r6
  | _ => f.r7

/-- `x[r] <- v`: all 16 bits are replaced, no write masks (R20). -/
def RegFile.put (f : RegFile) (r : Reg) (v : Word) : RegFile :=
  match r.val with
  | 0 => { f with r0 := v }
  | 1 => { f with r1 := v }
  | 2 => { f with r2 := v }
  | 3 => { f with r3 := v }
  | 4 => { f with r4 := v }
  | 5 => { f with r5 := v }
  | 6 => { f with r6 := v }
  | _ => { f with r7 := v }

/-- `x[r]` in a state. -/
def State.reg (s : State) (r : Reg) : Word := s.regs.get r

/-! ## Updates of a state, one field each -/

/-- `x[r] <- v` -/
def State.setReg (s : State) (r : Reg) (v : Word) : State := { s with regs := s.regs.put r v }

/-- `pc <- target`, unchecked (R24) -/
def State.setPc (s : State) (target : Word) : State := { s with pc := target }

/-- Move past the `n` words of the instruction (R23: `pc = ipc + L`). -/
def State.advance (s : State) (n : Nat) : State := s.setPc (s.pc + BitVec.ofNat 16 n)

/-- `status <- st` -/
def State.setStatus (s : State) (st : Status) : State := { s with status := st }

/-- Replace the stack. -/
def State.setStack (s : State) (l : List Word) : State := { s with stack := l }

/-- Replace the memory. -/
def State.setMem (s : State) (m : Memory) : State := { s with mem := m }

/-- Replace the input supply. -/
def State.setInput (s : State) (l : List Word) : State := { s with input := l }

/-- `Emit(c)` (47_io.md R172): append to the output stream. -/
def State.emit (s : State) (c : Byte) : State := { s with output := s.output ++ [c] }

/-! ## Fatal errors -/

/-- The code of a cause (60_exceptions.md R201), 4 bits (10_state.md R30). -/
def Cause.code : Cause → BitVec 4
  | .none => 0
  | .badOpcode => 1
  | .badOperand => 2
  | .badDest => 3
  | .stackEmpty => 4
  | .divZero => 5
  | .memAddr => 6
  | .fetchAddr => 7
  | .stackFull => 8
  | .inputClosed => 9

/-- The code of a status (10_state.md R29). -/
def Status.code : Status → Nat
  | .running => 0
  | .awaitingInput => 1
  | .halted => 2
  | .fatal => 3

/-- `raise Cause(info)` (60_exceptions.md R205), on the state at the instruction's own boundary, so
that `s.pc` is `ipc`: the pc is (still) at the opcode word, status Fatal, the fault record written,
nothing else changed. No handler, nothing pushed (R206). Precise by the spec's decision D7
(assumption log 9, DESIGN CHOICE). -/
def State.raise (s : State) (c : Cause) (w : Word) : State :=
  { s with status := .fatal, fault := { cause := c, pc := s.pc, word := w } }

/-- Abandon the instruction as a fatal error. -/
def State.fatal (s : State) (c : Cause) (w : Word) : Result := .next (s.raise c w)

/-- The reset sequence of 70_reset_and_hazards.md R241 for an image and an input supply, keeping the
parameters. The only way out of Halted and Fatal (R207): the ISA has no return from an error. The
loader refuses an image of odd length or over 65536 bytes (R247, D11; assumption log 13), and a
supply reported closed while it still holds words (R175). -/
def State.boot (p : Config.Params) (image : List Byte) (input : List Word) (closed : Bool) :
    Option State :=
  if image.length % 2 = 0 ∧ image.length ≤ 65536 ∧ (closed = true → input = []) then
    some { State.reset with
      mem := Memory.ofBytes 0 image
      input := input
      inputClosed := closed
      params := p }
  else none

/-! ## The stack -/

/-- The stack already holds STACK_DEPTH entries (10_state.md R26); never with `unbounded`. -/
def State.stackFull (s : State) : Bool :=
  match s.params.stackDepth with
  | none => false
  | some n => decide (n ≤ s.stack.length)

/-- `Push(v)` and then `k` (R26); on a full stack STACK_FULL with the opcode word `op` (R201). The
value is stored whole. -/
def State.pushThen (s : State) (op v : Word) (k : State → State) : Result :=
  if s.stackFull then s.fatal .stackFull op else .next (k (s.setStack (v :: s.stack)))

/-! ## Finishing an instruction -/

/-- `x[d] <- v` and on to the next instruction, `n` words further. -/
def State.finishReg (s : State) (d : Reg) (v : Word) (n : Nat) : Result :=
  .next ((s.setReg d v).advance n)

/-! ## Fetch -/

/-- The words from the program counter on: four, or as many as stand up to address 32767 (R77). -/
def State.window (s : State) : List Word := s.mem.wordsFrom 4 s.pc.toNat

/-- What the fetch and decode part of R78 gives: the instruction at the program counter, or why
there is none. -/
def State.fetch (s : State) : Decoded := decode s.window

/-- The fatal error of a rejected fetch: its cause and fault_word (R201). A word number `k` that is
not there would be fetched with the program counter at `ipc + k`. -/
def State.raiseDecode (s : State) : DecodeError → State
  | .truncated k => s.raise .fetchAddr (s.pc + BitVec.ofNat 16 k)
  | .badOpcode w => s.raise .badOpcode w
  | .badOperand w => s.raise .badOperand w
  | .badDest w => s.raise .badDest w

/-- A state whose next step fetches the given words: they stand at the program counter, and a
terminal status gives way to Running, since a terminal state fetches nothing (R207). -/
def State.placeWords (s : State) (ws : List Word) : State :=
  let s' := s.setMem (s.mem.storeWords s.pc.toNat ws)
  match s.status with
  | .running => s'
  | .awaitingInput => s'
  | .halted => s'.setStatus .running
  | .fatal => s'.setStatus .running

end Sys2Proof.Machine
end

