-- ==== Sys2Proof/Machine/Operands.lean ====
section
/-! DEFINITION. The value of every operand form (30_encoding.md R75). There are two: a literal and a
register. A destination operand needs no evaluation: it is a register name (R76). -/

namespace Sys2Proof.Machine

/-- `Val(w)` of R75 for a decoded operand: the literal itself, or the register's 16-bit content as
it is, not decoded again (10_state.md R21). A literal above 32767 is not an instruction of the ISA
(`Operand.wellFormed`) and never comes from the decoder; here it would stand for itself
(assumption log 31). -/
def State.value (s : State) : Operand → Word
  | .lit n => n
  | .reg r => s.reg r

end Sys2Proof.Machine
end

