-- ==== Sys2Proof/Machine/Flags.lean ====
section
/-! DEFINITION. Conditions. The ISA has no flags (10_state.md R34): a comparison gives the word 0 or
1, and a conditional jump tests a whole 16-bit value against 0. All comparisons are unsigned
(42_compare.md R121). On values above 32767 they see all 16 bits (D2; assumption log 4). -/

namespace Sys2Proof.Machine

/-- "(…) ? 1 : 0" of R80, rows `eq` and `gt`. -/
def boolWord (b : Bool) : Word := if b then 1 else 0

/-- `a == b` of R120, whole 16-bit values. -/
def eqTest (a b : Word) : Bool := decide (a.toNat = b.toNat)

/-- `a > b` of R121, unsigned. -/
def gtTest (a b : Word) : Bool := decide (b.toNat < a.toNat)

/-- `a ≠ 0` of R131 and R132, the whole 16-bit value. -/
def nonzero (a : Word) : Bool := decide (a.toNat ≠ 0)

end Sys2Proof.Machine
end

