-- ==== Sys2Proof/Machine/Alu.lean ====
section
/-! DEFINITION. `add`, `mult`, `mod`, `and`, `or`, `not` (44_alu.md). The formulas are computed on
natural numbers and narrowed at the end, for every 16-bit operand (R140, D2; assumption log 4). -/

namespace Sys2Proof.Machine

/-- `n mod 32768` as a word. -/
def mod32768 (n : Nat) : Word := BitVec.ofNat 16 (n % 32768)

/-- R141: `(a + b) mod 32768`, the sum exact. -/
def aluAdd (a b : Word) : Word := mod32768 (a.toNat + b.toNat)

/-- R142: `(a * b) mod 32768`, the product exact. -/
def aluMult (a b : Word) : Word := mod32768 (a.toNat * b.toNat)

/-- R143: `a mod b` for b > 0, not reduced modulo 32768 (C4, D19; assumption log 20). -/
def aluMod (a b : Word) : Word := BitVec.ofNat 16 (a.toNat % b.toNat)

/-- R144: `(a & b) mod 32768`. -/
def aluAnd (a b : Word) : Word := mod32768 (a &&& b).toNat

/-- R145: `(a | b) mod 32768`. -/
def aluOr (a b : Word) : Word := mod32768 (a ||| b).toNat

/-- R146: `(~a) mod 32768` with `~a = 65535 - a`. -/
def aluNot (a : Word) : Word := mod32768 (65535 - a.toNat)

/-- R141 -/
def execAdd (d : Reg) (a b : Operand) (s : State) : Result :=
  s.finishReg d (aluAdd (s.value a) (s.value b)) 4

/-- R142 -/
def execMult (d : Reg) (a b : Operand) (s : State) : Result :=
  s.finishReg d (aluMult (s.value a) (s.value b)) 4

/-- R143: DIV_ZERO for a zero divisor (D5; assumption log 7), with the divisor's operand word (R201). -/
def execMod (d : Reg) (a b : Operand) (s : State) : Result :=
  if nonzero (s.value b) then s.finishReg d (aluMod (s.value a) (s.value b)) 4
  else s.fatal .divZero b.word

/-- R144 -/
def execAnd (d : Reg) (a b : Operand) (s : State) : Result :=
  s.finishReg d (aluAnd (s.value a) (s.value b)) 4

/-- R145 -/
def execOr (d : Reg) (a b : Operand) (s : State) : Result :=
  s.finishReg d (aluOr (s.value a) (s.value b)) 4

/-- R146 -/
def execNot (d : Reg) (a : Operand) (s : State) : Result :=
  s.finishReg d (aluNot (s.value a)) 3

end Sys2Proof.Machine
end

