-- ==== Sys2Proof/Machine/CallRet.lean ====
section
/-! DEFINITION. `call` and `ret` (46_call_ret.md). -/

namespace Sys2Proof.Machine

/-- R160: push `ipc + 2`, then jump; STACK_FULL with the opcode word 17. -/
def execCall (v : Operand) (s : State) : Result :=
  s.pushThen 17 (s.pc + 2) fun t => t.setPc (s.value v)

/-- R161: with an empty stack a normal end, as after `halt`; else the top of the stack is the pc. -/
def execRet (s : State) : Result :=
  match s.stack with
  | [] => .next ((s.setStatus .halted).advance 1)
  | v :: rest => .next ((s.setStack rest).setPc v)

end Sys2Proof.Machine
end

