-- ==== Sys2Proof/Machine/Compare.lean ====
section
/-! DEFINITION. `eq` and `gt` (42_compare.md). -/

namespace Sys2Proof.Machine

/-- R120 -/
def execEq (d : Reg) (a b : Operand) (s : State) : Result :=
  s.finishReg d (boolWord (eqTest (s.value a) (s.value b))) 4

/-- R121 -/
def execGt (d : Reg) (a b : Operand) (s : State) : Result :=
  s.finishReg d (boolWord (gtTest (s.value a) (s.value b))) 4

end Sys2Proof.Machine
end

