-- ==== Sys2Proof/Machine/HaltNoop.lean ====
section
/-! DEFINITION. `halt` and `noop` (40_halt_noop.md). Every meaning takes the state at the
instruction's own boundary, with the pc at the opcode word (assumption log 31). -/

namespace Sys2Proof.Machine

/-- R100: status Halted; the pc is left after the word. -/
def execHalt (s : State) : Result := .next ((s.setStatus .halted).advance 1)

/-- R101: nothing but the pc. -/
def execNoop (s : State) : Result := .next (s.advance 1)

end Sys2Proof.Machine
end

