-- ==== Sys2Proof/Machine/Io.lean ====
section
/-! DEFINITION. `out` and `in` (47_io.md). -/

namespace Sys2Proof.Machine

/-- R170: the low 8 bits of the value leave the engine; it never waits (R173). -/
def execOut (v : Operand) (s : State) : Result :=
  .next ((s.emit (lowByte (s.value v))).advance 2)

/-- R171: the front word of the supply into the register, whole; with no word, INPUT_CLOSED (opcode
word 20) if the source is closed, else AwaitingInput with the pc still at the `in`. -/
def execInp (d : Reg) (s : State) : Result :=
  match s.input with
  | w :: rest => (s.setInput rest).finishReg d w 2
  | [] =>
    if s.inputClosed then s.fatal .inputClosed 20 else .next (s.setStatus .awaitingInput)

end Sys2Proof.Machine
end

