-- ==== Sys2Proof/Machine/Jump.lean ====
section
/-! DEFINITION. `jmp`, `jt`, `jf` (43_jump.md). Targets are written unchecked; one above 32767 faults
at the next fetch (10_state.md R24, D3; assumption log 5). -/

namespace Sys2Proof.Machine

/-- R130 -/
def execJmp (v : Operand) (s : State) : Result := .next (s.setPc (s.value v))

/-- R131 -/
def execJt (a v : Operand) (s : State) : Result :=
  .next (if nonzero (s.value a) then s.setPc (s.value v) else s.advance 3)

/-- R132 -/
def execJf (a v : Operand) (s : State) : Result :=
  .next (if nonzero (s.value a) then s.advance 3 else s.setPc (s.value v))

end Sys2Proof.Machine
end

