-- ==== Sys2Proof/Machine/MemoryAccess.lean ====
section
/-! DEFINITION. `rmem` and `wmem` (45_memory_access.md). The effective address is the resolved value of
the address operand; above 32767 it is MEM_ADDR with that address (D4; assumption log 6). -/

namespace Sys2Proof.Machine

/-- Continue with the cell address a word gives, or raise MEM_ADDR. -/
def State.withAddr (s : State) (ea : Word) (k : Nat → Result) : Result :=
  if ea.toNat ≤ 32767 then k ea.toNat else s.fatal .memAddr ea

/-- R150 -/
def execRmem (d : Reg) (addr : Operand) (s : State) : Result :=
  s.withAddr (s.value addr) fun ea => s.finishReg d (s.mem.readCell ea) 3

/-- R151 -/
def execWmem (addr v : Operand) (s : State) : Result :=
  s.withAddr (s.value addr) fun ea =>
    .next ((s.setMem (s.mem.writeCell ea (s.value v))).advance 3)

end Sys2Proof.Machine
end

