-- ==== Sys2Proof/Machine/SetStack.lean ====
section
/-! DEFINITION. `set`, `push`, `pop` (41_set_stack.md). -/

namespace Sys2Proof.Machine

/-- R110: the value is copied whole. -/
def execSet (d : Reg) (v : Operand) (s : State) : Result := s.finishReg d (s.value v) 3

/-- R111: push the resolved value; STACK_FULL with the opcode word 2. -/
def execPush (v : Operand) (s : State) : Result :=
  s.pushThen 2 (s.value v) fun t => t.advance 2

/-- R112: the top of the stack into the register; STACK_EMPTY with the opcode word 3. -/
def execPop (d : Reg) (s : State) : Result :=
  match s.stack with
  | [] => s.fatal .stackEmpty 3
  | v :: rest => (s.setStack rest).finishReg d v 2

end Sys2Proof.Machine
end

