-- ==== Sys2Proof/Machine/Engine.lean ====
section
/-! DEFINITION. The step of 30_encoding.md R78 around exec: fetch, decode, execute, with the statuses
of 10_state.md R29. -/

namespace Sys2Proof.Machine

/-- `status <- Running`: an AwaitingInput engine retries from scratch (R78, R176). -/
def State.resume (s : State) : State := s.setStatus .running

/-- The step of an engine that is not in a terminal status. -/
def activeStep (s : State) : Result :=
  match s.fetch with
  | .instr i _ => exec i s.resume
  | .rejected e => .next (s.resume.raiseDecode e)

/-- R78: in Halted and Fatal a step changes nothing (60_exceptions.md R207, D17; assumption log 19). -/
def engineStep (s : State) : Result :=
  match s.status with
  | .running => activeStep s
  | .awaitingInput => activeStep s
  | .halted => .next s
  | .fatal => .next s

end Sys2Proof.Machine
end

