-- ==== Sys2Proof/Machine/Step.lean ====
section
/-! DEFINITION. The step of the machine and the host's way to place one instruction for it. -/

namespace Sys2Proof.Machine

/-- One step (30_encoding.md R78). -/
def step (s : State) : Host.Outcome State Fault Refusal := engineStep s

/-- The state `s` with the instruction of the given bits (words in order, each cell whole) stored where
the next step fetches. -/
def State.withFetchWord (s : State) (nbits w : Nat) : State := s.placeWords (tableWords nbits w)

end Sys2Proof.Machine
end

