-- ==== Sys2Proof/Laws/Decode.lean ====
section
/-! SUPPORT. The laws of operand words and of the decoder's two readers: what each can answer. -/

namespace Sys2Proof

@[simp] theorem Operand.word_lit (n : Word) : (Operand.lit n).word = n := rfl
@[simp] theorem Operand.word_reg (r : Reg) : (Operand.reg r).word = Reg.word r := rfl

/-- A register's operand word names that register (R76, R89). -/
@[simp] theorem Reg.ofWord?_word (r : Reg) : Reg.ofWord? (Reg.word r) = some r := by
  revert r; decide

/-- A register's operand word is a value operand that reads that register (R75, R89). -/
@[simp] theorem Operand.ofWord?_regWord (r : Reg) : Operand.ofWord? (Reg.word r) = some (.reg r) := by
  revert r; decide

/-- The operand word of a well-formed operand stands for it (R75). -/
theorem Operand.ofWord?_word {o : Operand} (h : o.wellFormed = true) : Operand.ofWord? o.word = some o := by
  cases o with
  | lit n =>
    have hn : n.toNat ≤ 32767 := by simpa [Operand.wellFormed] using h
    simp [Operand.word, Operand.ofWord?, hn]
  | reg r => exact Operand.ofWord?_regWord r

theorem Reg.word_toNat (r : Reg) : (Reg.word r).toNat = 32768 + r.val := by
  have := r.isLt
  simp only [Reg.word, BitVec.toNat_ofNat]
  omega

/-- A word that stands for an operand is that operand's word, and the operand is well formed. -/
theorem Operand.ofWord?_some {w : Word} {o : Operand} (h : Operand.ofWord? w = some o) :
    o.word = w ∧ o.wellFormed = true := by
  unfold Operand.ofWord? at h
  split at h
  · next hw => cases h; exact ⟨rfl, by simpa [Operand.wellFormed] using hw⟩
  · split at h
    · next hw hr =>
      cases h
      have hv : (Reg.word ⟨w.toNat - 32768, hr⟩).toNat = w.toNat := by
        rw [Reg.word_toNat]
        simp only
        omega
      exact ⟨BitVec.eq_of_toNat_eq hv, rfl⟩
    · cases h

/-- A word that names a destination is that register's word. -/
theorem Reg.ofWord?_some {w : Word} {r : Reg} (h : Reg.ofWord? w = some r) : Reg.word r = w := by
  unfold Reg.ofWord? at h
  split at h
  · cases h
  · split at h
    · next hw hr =>
      have hv : (Reg.word ⟨w.toNat - 32768, hr⟩).toNat = w.toNat := by
        rw [Reg.word_toNat]
        simp only
        omega
      rw [← Option.some.inj h]
      exact BitVec.eq_of_toNat_eq hv
    · cases h

/-- Value operand words are exactly 0 to 32775 (R75). -/
theorem Operand.ofWord?_eq_none {w : Word} : Operand.ofWord? w = none ↔ 32776 ≤ w.toNat := by
  unfold Operand.ofWord?
  split
  · simp; omega
  · split
    · simp; omega
    · simp; omega

/-- Destination words are exactly 32768 to 32775 (R76). -/
theorem Reg.ofWord?_eq_none {w : Word} : Reg.ofWord? w = none ↔ w.toNat ≤ 32767 ∨ 32776 ≤ w.toNat := by
  unfold Reg.ofWord?
  split
  · simp; omega
  · split
    · simp; omega
    · simp; omega

/-! ### the readers -/

@[simp] theorem takeDst_nil (k : Nat) (f : Reg → List Word → Decoded) :
    takeDst k [] f = .rejected (.truncated k) := rfl

@[simp] theorem takeVal_nil (k : Nat) (f : Operand → List Word → Decoded) :
    takeVal k [] f = .rejected (.truncated k) := rfl

@[simp] theorem takeDst_word (k : Nat) (r : Reg) (ws : List Word) (f : Reg → List Word → Decoded) :
    takeDst k (Reg.word r :: ws) f = f r ws := by simp [takeDst]

theorem takeVal_word (k : Nat) {o : Operand} (ws : List Word) (f : Operand → List Word → Decoded)
    (h : o.wellFormed = true) : takeVal k (o.word :: ws) f = f o ws := by
  simp [takeVal, Operand.ofWord?_word h]

/-- Everything a destination reader that answers an instruction did. -/
theorem takeDst_eq_instr {k : Nat} {ws rest : List Word} {f : Reg → List Word → Decoded} {i : Instr}
    (h : takeDst k ws f = .instr i rest) :
    ∃ r ws', ws = Reg.word r :: ws' ∧ f r ws' = .instr i rest := by
  cases ws with
  | nil => cases h
  | cons w ws =>
    simp only [takeDst] at h
    split at h
    · cases h
    · next r hr => exact ⟨r, ws, by rw [Reg.ofWord?_some hr], h⟩

/-- Everything a value reader that answers an instruction did. -/
theorem takeVal_eq_instr {k : Nat} {ws rest : List Word} {f : Operand → List Word → Decoded} {i : Instr}
    (h : takeVal k ws f = .instr i rest) :
    ∃ o ws', o.wellFormed = true ∧ ws = o.word :: ws' ∧ f o ws' = .instr i rest := by
  cases ws with
  | nil => cases h
  | cons w ws =>
    simp only [takeVal] at h
    split at h
    · cases h
    · next o ho =>
      obtain ⟨hw, hwf⟩ := Operand.ofWord?_some ho
      exact ⟨o, ws, hwf, by rw [hw], h⟩

end Sys2Proof
end

