-- ==== Sys2Proof/Laws/PerInstr.lean ====
section
/-! SUPPORT. Statements about every instruction, one lemma per constructor. Family RoundTrip: the
words the encoder writes decode to the instruction, whatever words follow. -/

namespace Sys2Proof.Laws.RoundTrip

/-- A well-formed instruction's words, with any words after them, decode to it and those words. -/
def Statement (i : Instr) : Prop :=
  i.wellFormed = true → ∀ rest : List Word, decode (encode i ++ rest) = .instr i rest

theorem halt : Statement .halt := fun _ _ => rfl

theorem set (d : Reg) (v : Operand) : Statement (.set d v) := by
  intro h rest
  have hv : v.wellFormed = true := h
  show decodeFDV ([Reg.word d, v.word] ++ rest) _ = _
  simp [decodeFDV, takeVal_word _ _ _ hv]

theorem push (v : Operand) : Statement (.push v) := by
  intro h rest
  have hv : v.wellFormed = true := h
  show decodeFV ([v.word] ++ rest) _ = _
  simp [decodeFV, takeVal_word _ _ _ hv]

theorem pop (d : Reg) : Statement (.pop d) := by
  intro _ rest
  show decodeFD ([Reg.word d] ++ rest) _ = _
  simp [decodeFD]

theorem eq (d : Reg) (a : Operand) (b : Operand) : Statement (.eq d a b) := by
  intro h rest
  obtain ⟨ha, hb⟩ : a.wellFormed = true ∧ b.wellFormed = true := by
    simpa [Instr.wellFormed] using h
  show decodeFDVV ([Reg.word d, a.word, b.word] ++ rest) _ = _
  simp [decodeFDVV, takeVal_word _ _ _ ha, takeVal_word _ _ _ hb]

theorem gt (d : Reg) (a : Operand) (b : Operand) : Statement (.gt d a b) := by
  intro h rest
  obtain ⟨ha, hb⟩ : a.wellFormed = true ∧ b.wellFormed = true := by
    simpa [Instr.wellFormed] using h
  show decodeFDVV ([Reg.word d, a.word, b.word] ++ rest) _ = _
  simp [decodeFDVV, takeVal_word _ _ _ ha, takeVal_word _ _ _ hb]

theorem jmp (v : Operand) : Statement (.jmp v) := by
  intro h rest
  have hv : v.wellFormed = true := h
  show decodeFV ([v.word] ++ rest) _ = _
  simp [decodeFV, takeVal_word _ _ _ hv]

theorem jt (a : Operand) (v : Operand) : Statement (.jt a v) := by
  intro h rest
  obtain ⟨ha, hv⟩ : a.wellFormed = true ∧ v.wellFormed = true := by
    simpa [Instr.wellFormed] using h
  show decodeFVV ([a.word, v.word] ++ rest) _ = _
  simp [decodeFVV, takeVal_word _ _ _ ha, takeVal_word _ _ _ hv]

theorem jf (a : Operand) (v : Operand) : Statement (.jf a v) := by
  intro h rest
  obtain ⟨ha, hv⟩ : a.wellFormed = true ∧ v.wellFormed = true := by
    simpa [Instr.wellFormed] using h
  show decodeFVV ([a.word, v.word] ++ rest) _ = _
  simp [decodeFVV, takeVal_word _ _ _ ha, takeVal_word _ _ _ hv]

theorem add (d : Reg) (a : Operand) (b : Operand) : Statement (.add d a b) := by
  intro h rest
  obtain ⟨ha, hb⟩ : a.wellFormed = true ∧ b.wellFormed = true := by
    simpa [Instr.wellFormed] using h
  show decodeFDVV ([Reg.word d, a.word, b.word] ++ rest) _ = _
  simp [decodeFDVV, takeVal_word _ _ _ ha, takeVal_word _ _ _ hb]

theorem mult (d : Reg) (a : Operand) (b : Operand) : Statement (.mult d a b) := by
  intro h rest
  obtain ⟨ha, hb⟩ : a.wellFormed = true ∧ b.wellFormed = true := by
    simpa [Instr.wellFormed] using h
  show decodeFDVV ([Reg.word d, a.word, b.word] ++ rest) _ = _
  simp [decodeFDVV, takeVal_word _ _ _ ha, takeVal_word _ _ _ hb]

theorem mod (d : Reg) (a : Operand) (b : Operand) : Statement (.mod d a b) := by
  intro h rest
  obtain ⟨ha, hb⟩ : a.wellFormed = true ∧ b.wellFormed = true := by
    simpa [Instr.wellFormed] using h
  show decodeFDVV ([Reg.word d, a.word, b.word] ++ rest) _ = _
  simp [decodeFDVV, takeVal_word _ _ _ ha, takeVal_word _ _ _ hb]

theorem and (d : Reg) (a : Operand) (b : Operand) : Statement (.and d a b) := by
  intro h rest
  obtain ⟨ha, hb⟩ : a.wellFormed = true ∧ b.wellFormed = true := by
    simpa [Instr.wellFormed] using h
  show decodeFDVV ([Reg.word d, a.word, b.word] ++ rest) _ = _
  simp [decodeFDVV, takeVal_word _ _ _ ha, takeVal_word _ _ _ hb]

theorem or (d : Reg) (a : Operand) (b : Operand) : Statement (.or d a b) := by
  intro h rest
  obtain ⟨ha, hb⟩ : a.wellFormed = true ∧ b.wellFormed = true := by
    simpa [Instr.wellFormed] using h
  show decodeFDVV ([Reg.word d, a.word, b.word] ++ rest) _ = _
  simp [decodeFDVV, takeVal_word _ _ _ ha, takeVal_word _ _ _ hb]

theorem not (d : Reg) (a : Operand) : Statement (.not d a) := by
  intro h rest
  have ha : a.wellFormed = true := h
  show decodeFDV ([Reg.word d, a.word] ++ rest) _ = _
  simp [decodeFDV, takeVal_word _ _ _ ha]

theorem rmem (d : Reg) (a : Operand) : Statement (.rmem d a) := by
  intro h rest
  have ha : a.wellFormed = true := h
  show decodeFDV ([Reg.word d, a.word] ++ rest) _ = _
  simp [decodeFDV, takeVal_word _ _ _ ha]

theorem wmem (a : Operand) (v : Operand) : Statement (.wmem a v) := by
  intro h rest
  obtain ⟨ha, hv⟩ : a.wellFormed = true ∧ v.wellFormed = true := by
    simpa [Instr.wellFormed] using h
  show decodeFVV ([a.word, v.word] ++ rest) _ = _
  simp [decodeFVV, takeVal_word _ _ _ ha, takeVal_word _ _ _ hv]

theorem call (v : Operand) : Statement (.call v) := by
  intro h rest
  have hv : v.wellFormed = true := h
  show decodeFV ([v.word] ++ rest) _ = _
  simp [decodeFV, takeVal_word _ _ _ hv]

theorem ret : Statement .ret := fun _ _ => rfl

theorem out (v : Operand) : Statement (.out v) := by
  intro h rest
  have hv : v.wellFormed = true := h
  show decodeFV ([v.word] ++ rest) _ = _
  simp [decodeFV, takeVal_word _ _ _ hv]

theorem inp (d : Reg) : Statement (.inp d) := by
  intro _ rest
  show decodeFD ([Reg.word d] ++ rest) _ = _
  simp [decodeFD]

theorem noop : Statement .noop := fun _ _ => rfl

end Sys2Proof.Laws.RoundTrip
end

