-- ==== Sys2Proof/Machine/Environment.lean ====
section
/-! DEFINITION. The moves of the environment (60_exceptions.md R223), made between two steps: the debug
access port (R215 to R222), the supply of input (47_io.md R175) and the reset (R240). They are kept
out of the step, which stays a function of the state; a run interleaves both (assumption log 29). -/

namespace Sys2Proof.Machine

/-- The accesses of the debug port: the five of R217 to R221 and the resume of R222. Arguments are
numbers as the host writes them; the port checks their ranges (D24; assumption log 25). -/
inductive DebugAccess where
  /-- R217 -/
  | readRegs
  /-- R218 -/
  | writeReg (index value : Nat)
  /-- R219 -/
  | readCell (addr : Nat)
  /-- R220 -/
  | writeCell (addr value : Nat)
  /-- R221: the pc and the words of `count` instructions from the pc on -/
  | readCode (count : Nat)
  /-- R222 -/
  | resume
  deriving DecidableEq, Repr

/-- What the port answers. -/
inductive DebugReply where
  | registers (f : RegFile)
  | cell (w : Word)
  | code (pc : Word) (words : List Word)
  | done
  | refused
  deriving DecidableEq, Repr

/-- The port can be used: the host uses it at all (DEBUG_PORT), and the status is Running or
AwaitingInput (R216, D16; assumption log 18). -/
def State.debuggable (s : State) : Bool :=
  s.params.debugPort &&
    match s.status with
    | .running => true
    | .awaitingInput => true
    | .halted => false
    | .fatal => false

/-- The words of `n` instructions from cell `a` on, a cursor moving by the decoded lengths of R72, 1
for a word that is no opcode (R221, R85). Nothing above address 32767 is read (assumption log 34). -/
def Memory.codeFrom (m : Memory) : Nat → Nat → List Word
  | 0, _ => []
  | n + 1, a =>
    if a ≤ 32767 then
      m.wordsFrom (lengthOf (m.readCell a)) a ++ Memory.codeFrom m n (a + lengthOf (m.readCell a))
    else []

/-- One access, the port being usable: the reply and the state after it. A malformed access is
refused and changes nothing (R218 to R220). -/
def debugAnswer (a : DebugAccess) (s : State) : DebugReply × State :=
  match a with
  | .readRegs => (.registers s.regs, s)
  | .writeReg i v =>
    if h : i < 8 then
      if v ≤ 65535 then (.done, s.setReg ⟨i, h⟩ (BitVec.ofNat 16 v)) else (.refused, s)
    else (.refused, s)
  | .readCell a => if a ≤ 32767 then (.cell (s.mem.readCell a), s) else (.refused, s)
  | .writeCell a v =>
    if a ≤ 32767 ∧ v ≤ 65535 then
      (.done, s.setMem (s.mem.writeCell a (BitVec.ofNat 16 v)))
    else (.refused, s)
  | .readCode n => (.code s.pc (s.mem.codeFrom n s.pc.toNat), s)
  | .resume => (.done, s)

/-- A debug access at an instruction boundary; none where the host has no such move (R216). -/
def debugAccess (a : DebugAccess) (s : State) : Option (DebugReply × State) :=
  if s.debuggable then some (debugAnswer a s) else none

/-- What the environment can do at an instruction boundary (R223). -/
inductive EnvMove where
  /-- R240, R241: reset with an image and an initial input supply -/
  | reset (image : List Byte) (input : List Word) (closed : Bool)
  /-- R175: append words to the input supply -/
  | supply (words : List Word)
  /-- R175: report the input source closed -/
  | closeInput
  /-- R215 to R222 -/
  | debug (a : DebugAccess)
  deriving DecidableEq, Repr

/-- The state after a move; none where the environment's duties give it no such move: an image the
loader refuses (R247), words after the source was reported closed, or closing it while words are
pending (R175), a debug access where there is none (R216). The range of a supplied word is the
environment's duty and is not checked (R175, D13; assumption log 15). -/
def envMove (e : EnvMove) (s : State) : Option State :=
  match e with
  | .reset image input closed => State.boot s.params image input closed
  | .supply words => if s.inputClosed then none else some (s.setInput (s.input ++ words))
  | .closeInput => if s.input = [] then some { s with inputClosed := true } else none
  | .debug a => (debugAccess a s).map Prod.snd

end Sys2Proof.Machine
end

