-- ==== Sys2Proof/Safety.lean ====
section
/-! DEFINITION. What counts as a safe run, in the terms claims use: the statuses that end a run (R254),
the invariant of the machine, Word-cleanness (R38), and the states a machine can reach by steps and
environment moves. -/

namespace Sys2Proof.Machine

/-- The engine executes at its next step: Running or AwaitingInput (R78). -/
def State.active (s : State) : Bool :=
  match s.status with
  | .running => true
  | .awaitingInput => true
  | .halted => false
  | .fatal => false

/-- R254: a run has ended when the status is Halted or Fatal. -/
def State.ended (s : State) : Bool := !s.active

/-- R254: it has ended well only when the status is Halted. -/
def State.endedWell (s : State) : Bool := decide (s.status = .halted)

/-- The fault record agrees with the status (R30): in Fatal a cause is recorded and fault_pc is the
pc (R205); in every other status nothing is recorded. -/
def State.faultOk (s : State) : Bool :=
  match s.status with
  | .fatal => decide (s.fault.cause ≠ .none) && decide (s.fault.pc = s.pc)
  | _ => decide (s.fault = { cause := .none, pc := 0, word := 0 })

/-- The stack holds at most STACK_DEPTH entries (R26). -/
def State.stackOk (s : State) : Bool :=
  match s.params.stackDepth with
  | none => true
  | some n => decide (s.stack.length ≤ n)

/-- The source is reported closed only when the supply is empty (R175). -/
def State.inputOk (s : State) : Bool := !s.inputClosed || decide (s.input = [])

/-- The invariant of the machine: canonical memory, and the three above. -/
def State.inv (s : State) : Bool := s.mem.wf && s.faultOk && s.stackOk && s.inputOk

/-- A Word: 0 to 32767 (R12). -/
def isWord (w : Word) : Bool := decide (w.toNat ≤ 32767)

/-- R38: every register and every stack entry holds a value 0 to 32767. -/
def State.wordClean (s : State) : Prop := (∀ r, isWord (s.reg r) = true) ∧ ∀ w ∈ s.stack, isWord w = true

/-- The words `ws` stand in memory at the cells from `a` on, all at addresses 0 to 32767. -/
def Memory.holds (m : Memory) : Nat → List Word → Prop
  | _, [] => True
  | a, w :: ws => a ≤ 32767 ∧ m.readCell a = w ∧ Memory.holds m (a + 1) ws

/-- The states a machine with parameters `p` can be in: after any reset, any steps and any moves of
the environment between them. -/
inductive Reachable (p : Config.Params) : State → Prop where
  | boot {image : List Byte} {input : List Word} {closed : Bool} {s : State} :
      State.boot p image input closed = some s → Reachable p s
  | step {s t : State} : Reachable p s → step s = .next t → Reachable p t
  | env {s t : State} {e : EnvMove} : Reachable p s → envMove e s = some t → Reachable p t

/-- A run from `s` is safe for `n` steps: it goes through them and no fatal error is recorded (R207:
a claim that a program runs correctly carries "no fatal error recorded"). -/
def State.safeFor (s : State) (n : Nat) : Prop :=
  ∃ t, Sys2Proof.core.run n s = .next t ∧ t.fault.cause = Cause.none

end Sys2Proof.Machine
end

