-- ==== Sys2Proof/Certificates/Slice0/Obligations.lean ====
section
/-! DEFINITION. The statements for the provers. First the words they are said in: frames, what it is
for a step to raise a cause, and a transcription of the step's pseudocode (30_encoding.md R78) that works
word by word, which the model's step is stated to equal. Statements about `exec` take the state at
the instruction's own boundary (assumption log 31). -/

open Sys2Proof Sys2Proof.Machine

/-! ## Frames -/

namespace Sys2Proof.Claims

/-- Every byte of memory reads as before. -/
def sameMem (s t : State) : Prop := ∀ a, t.mem.readByte a = s.mem.readByte a

/-- Every register reads as before. -/
def sameRegs (s t : State) : Prop := ∀ r, t.reg r = s.reg r

/-- The ports and the parameters are as before. -/
def samePorts (s t : State) : Prop :=
  t.output = s.output ∧ t.input = s.input ∧ t.inputClosed = s.inputClosed ∧ t.params = s.params

/-- Status and fault record are as before. -/
def sameStatus (s t : State) : Prop := t.status = s.status ∧ t.fault = s.fault

/-- The pc has moved past `n` words; registers but `d` are as before, and so is all else; `d` holds `v`. -/
def onlyReg (s t : State) (d : Reg) (v : Word) (n : Nat) : Prop :=
  t.reg d = v ∧ (∀ r, r ≠ d → t.reg r = s.reg r) ∧ t.pc = s.pc + BitVec.ofNat 16 n ∧
    t.stack = s.stack ∧ sameMem s t ∧ sameStatus s t ∧ samePorts s t

/-- Only the pc has changed, to `target`. -/
def onlyPc (s t : State) (target : Word) : Prop :=
  t.pc = target ∧ sameRegs s t ∧ t.stack = s.stack ∧ sameMem s t ∧ sameStatus s t ∧ samePorts s t

/-- The answer is a state in which the fatal error `c` has been raised. -/
def raises (r : Result) (c : Cause) : Prop :=
  ∃ t, r = .next t ∧ t.status = .fatal ∧ t.fault.cause = c

/-- The cell at distance `k` from the pc. -/
def wordAt (s : State) (k : Nat) : Word := s.mem.readCell (s.pc.toNat + k)

/-- `P` of the value of the value operand at distance `k` from the pc; FETCH_ADDR where its word is
above the top of memory and BAD_OPERAND where its word is 32776 to 65535. -/
def withVal (s : State) (k : Nat) (r : Result) (P : Word → Prop) : Prop :=
  (32767 < s.pc.toNat + k → raises r .fetchAddr) ∧
  (s.pc.toNat + k ≤ 32767 →
    (32776 ≤ (wordAt s k).toNat → raises r .badOperand) ∧
    ((wordAt s k).toNat ≤ 32767 → P (wordAt s k)) ∧
    ∀ q : Reg, (wordAt s k).toNat = 32768 + q.val → P (s.reg q))

/-- `P` of the destination operand at distance `k` from the pc; FETCH_ADDR where its word is above the
top of memory and BAD_DEST where its word is not 32768 to 32775. -/
def withDst (s : State) (k : Nat) (r : Result) (P : Reg → Prop) : Prop :=
  (32767 < s.pc.toNat + k → raises r .fetchAddr) ∧
  (s.pc.toNat + k ≤ 32767 →
    ((wordAt s k).toNat ≤ 32767 ∨ 32776 ≤ (wordAt s k).toNat → raises r .badDest) ∧
    ∀ q : Reg, (wordAt s k).toNat = 32768 + q.val → P q)

/-- The register an instruction with a destination operand names (R81). -/
def dest? : Instr → Option Reg
  | .set d _ => some d
  | .pop d => some d
  | .eq d _ _ => some d
  | .gt d _ _ => some d
  | .add d _ _ => some d
  | .mult d _ _ => some d
  | .mod d _ _ => some d
  | .and d _ _ => some d
  | .or d _ _ => some d
  | .not d _ => some d
  | .rmem d _ => some d
  | .inp d => some d
  | .halt => none
  | .push _ => none
  | .jmp _ => none
  | .jt _ _ => none
  | .jf _ _ => none
  | .wmem _ _ => none
  | .call _ => none
  | .ret => none
  | .out _ => none
  | .noop => none

/-- The value operands of an instruction, in operand order (R81). -/
def values : Instr → List Operand
  | .set _ v => [v]
  | .push v => [v]
  | .eq _ a b => [a, b]
  | .gt _ a b => [a, b]
  | .jmp v => [v]
  | .jt a v => [a, v]
  | .jf a v => [a, v]
  | .add _ a b => [a, b]
  | .mult _ a b => [a, b]
  | .mod _ a b => [a, b]
  | .and _ a b => [a, b]
  | .or _ a b => [a, b]
  | .not _ a => [a]
  | .rmem _ a => [a]
  | .wmem a v => [a, v]
  | .call v => [v]
  | .out v => [v]
  | .halt => []
  | .pop _ => []
  | .ret => []
  | .inp _ => []
  | .noop => []

/-- The causes an instruction can raise when it executes (60_exceptions.md R202, the columns after
BAD_DEST). -/
def executeCause : Instr → Option Cause
  | .push _ => some .stackFull
  | .call _ => some .stackFull
  | .pop _ => some .stackEmpty
  | .mod _ _ _ => some .divZero
  | .rmem _ _ => some .memAddr
  | .wmem _ _ => some .memAddr
  | .inp _ => some .inputClosed
  | .halt => none
  | .set _ _ => none
  | .eq _ _ _ => none
  | .gt _ _ _ => none
  | .jmp _ => none
  | .jt _ _ => none
  | .jf _ _ => none
  | .add _ _ _ => none
  | .mult _ _ _ => none
  | .and _ _ _ => none
  | .or _ _ _ => none
  | .not _ _ => none
  | .ret => none
  | .out _ => none
  | .noop => none

end Sys2Proof.Claims

/-! ## The step's pseudocode, word by word (R78 with R75 to R77, R81, R205 and the instruction rules) -/

namespace Sys2Proof.Pseudocode

/-- The kind of an operand (R81). -/
inductive Kind where
  | D
  | V
  deriving DecidableEq, Repr

/-- R81's table, by opcode number. -/
def kinds (op : Nat) : List Kind :=
  if op = 0 ∨ op = 18 ∨ op = 21 then []
  else if op = 2 ∨ op = 6 ∨ op = 17 ∨ op = 19 then [.V]
  else if op = 3 ∨ op = 20 then [.D]
  else if op = 1 ∨ op = 14 ∨ op = 15 then [.D, .V]
  else if op = 7 ∨ op = 8 ∨ op = 16 then [.V, .V]
  else [.D, .V, .V]

/-- `raise c(w)` (R205), `s.pc` being ipc. -/
def raise (s : State) (c : Cause) (w : Word) : State :=
  { s with status := .fatal, fault := { cause := c, pc := s.pc, word := w } }

/-- The register number of an operand word 32768 to 32775, `w[2:0]`. -/
def regOf (w : Word) : Reg := ⟨w.toNat % 8, Nat.mod_lt _ (by decide)⟩

/-- The value of a valid value operand word. -/
def val (s : State) (w : Word) : Word := if w.toNat ≤ 32767 then w else s.regs.get (regOf w)

/-- The loop of R78: fetch each operand word at the moving pc and check it before the next. Answers
the words and the pc after them, or the cause and word of the first check that fails. -/
def operands (m : Memory) : List Kind → Word → List Word → (Cause × Word) ⊕ (List Word × Word)
  | [], pc, ws => .inr (ws, pc)
  | k :: ks, pc, ws =>
    if pc.toNat > 32767 then .inl (.fetchAddr, pc)
    else
      let w := m.readCell pc.toNat
      match k with
      | .D =>
        if 32768 ≤ w.toNat ∧ w.toNat ≤ 32775 then operands m ks (pc + 1) (ws ++ [w])
        else .inl (.badDest, w)
      | .V =>
        if w.toNat ≤ 32775 then operands m ks (pc + 1) (ws ++ [w]) else .inl (.badOperand, w)

/-- The instruction rules' pseudocode. `pc'` is `ipc + L`; `s.pc` is ipc; the status is Running. -/
def execute (s : State) (op : Nat) (ws : List Word) (pc' : Word) : State :=
  let set (d v : Word) : State := { s with regs := s.regs.put (regOf d) v, pc := pc' }
  let bounded (k : State) : State :=
    match s.params.stackDepth with
    | none => k
    | some n => if n ≤ s.stack.length then raise s .stackFull (BitVec.ofNat 16 op) else k
  match op, ws with
  | 0, _ => { s with status := .halted, pc := pc' }
  | 1, [d, v] => set d (val s v)
  | 2, [v] => bounded { s with stack := val s v :: s.stack, pc := pc' }
  | 3, [d] =>
    match s.stack with
    | [] => raise s .stackEmpty 3
    | v :: rest => { set d v with stack := rest }
  | 4, [d, a, b] => set d (if val s a = val s b then 1 else 0)
  | 5, [d, a, b] => set d (if (val s a).toNat > (val s b).toNat then 1 else 0)
  | 6, [t] => { s with pc := val s t }
  | 7, [a, t] => if val s a ≠ 0 then { s with pc := val s t } else { s with pc := pc' }
  | 8, [a, t] => if val s a = 0 then { s with pc := val s t } else { s with pc := pc' }
  | 9, [d, a, b] => set d (BitVec.ofNat 16 (((val s a).toNat + (val s b).toNat) % 32768))
  | 10, [d, a, b] => set d (BitVec.ofNat 16 (((val s a).toNat * (val s b).toNat) % 32768))
  | 11, [d, a, b] =>
    if val s b = 0 then raise s .divZero b
    else set d (BitVec.ofNat 16 ((val s a).toNat % (val s b).toNat))
  | 12, [d, a, b] => set d ((val s a &&& val s b) &&& 32767)
  | 13, [d, a, b] => set d ((val s a ||| val s b) &&& 32767)
  | 14, [d, a] => set d (~~~(val s a) &&& 32767)
  | 15, [d, a] =>
    if (val s a).toNat > 32767 then raise s .memAddr (val s a)
    else set d (s.mem.readCell (val s a).toNat)
  | 16, [a, v] =>
    if (val s a).toNat > 32767 then raise s .memAddr (val s a)
    else { s with mem := s.mem.writeCell (val s a).toNat (val s v), pc := pc' }
  | 17, [t] => bounded { s with stack := pc' :: s.stack, pc := val s t }
  | 18, _ =>
    match s.stack with
    | [] => { s with status := .halted, pc := pc' }
    | v :: rest => { s with stack := rest, pc := v }
  | 19, [v] => { s with output := s.output ++ [(val s v).setWidth 8], pc := pc' }
  | 20, [d] =>
    match s.input, s.inputClosed with
    | w :: rest, _ => { set d w with input := rest }
    | [], true => raise s .inputClosed 20
    | [], false => { s with status := .awaitingInput }
  | 21, _ => { s with pc := pc' }
  | _, _ => s

/-- `Step()` of R78. -/
def step (s : State) : State :=
  if s.status = .halted ∨ s.status = .fatal then s
  else
    let s : State := { s with status := .running }
    if s.pc.toNat > 32767 then raise s .fetchAddr s.pc
    else
      let op := s.mem.readCell s.pc.toNat
      if op.toNat > 21 then raise s .badOpcode op
      else
        match operands s.mem (kinds op.toNat) (s.pc + 1) [] with
        | .inl (c, w) => raise s c w
        | .inr (ws, pc') => execute s op.toNat ws pc'

end Sys2Proof.Pseudocode

open Sys2Proof.Claims

/-! ## Encoding -/

/-- Every well-formed instruction's words decode to it, whatever words follow (30_encoding.md
sections 1, 2, 6). That wmem's address operand is a value operand is decision D21 (assumption log
22). -/
def Obligations.DecodeOfEncodeIsTheInstruction : Prop :=
  ∀ i : Instr, Sys2Proof.Laws.RoundTrip.Statement i

/-- The decoder accepts nothing but encodings, so no instruction has a second one (section 3, R79),
and what it accepts is well formed. That wmem's address operand is a value operand is decision D21
(assumption log 22). -/
def Obligations.DecoderAcceptsOnlyEncodings : Prop :=
  ∀ (ws rest : List Word) (i : Instr), decode ws = .instr i rest →
    i.wellFormed = true ∧ ws = encode i ++ rest

/-- R70, R72: the length is given by the opcode word alone, by R72's table, and is 1 to 4. -/
def Obligations.LengthIsGivenByTheOpcodeAlone : Prop :=
  (∀ op ∈ [0, 18, 21], lengthOf (BitVec.ofNat 16 op) = 1) ∧
  (∀ op ∈ [2, 3, 6, 17, 19, 20], lengthOf (BitVec.ofNat 16 op) = 2) ∧
  (∀ op ∈ [1, 7, 8, 14, 15, 16], lengthOf (BitVec.ofNat 16 op) = 3) ∧
  (∀ op ∈ [4, 5, 9, 10, 11, 12, 13], lengthOf (BitVec.ofNat 16 op) = 4) ∧
  ∀ (op : Word) (ws rest : List Word) (i : Instr), decode (op :: ws) = .instr i rest →
    (op :: ws).length = lengthOf op + rest.length ∧ (encode i).length = lengthOf op ∧
      1 ≤ lengthOf op ∧ lengthOf op ≤ 4

/-- A few words written out bit by bit from the tables of R73 and R80 decode to their instruction.
That wmem's address operand is a value operand is decision D21 (assumption log 22). -/
def Obligations.SampleWordsDecodeToTheirInstruction : Prop :=
  decode [0b0000000000000000] = .instr .halt [] ∧
  decode [0b0000000000000001, 0b1000000000000000, 0b0000000000000100] = .instr (.set 0 (.lit 4)) [] ∧
  decode [0b0000000000000011, 0b1000000000000010] = .instr (.pop 2) [] ∧
  decode [0b0000000000000101, 0b1000000000000000, 0b0000000000000111, 0b1000000000000111] =
    .instr (.gt 0 (.lit 7) (.reg 7)) [] ∧
  decode [0b0000000000000111, 0b1000000000000001, 0b0000000000000110] =
    .instr (.jt (.reg 1) (.lit 6)) [] ∧
  decode [0b0000000000001001, 0b1000000000000000, 0b1000000000000000, 0b0000000000000001] =
    .instr (.add 0 (.reg 0) (.lit 1)) [] ∧
  decode [0b0000000000010000, 0b0000000000001101, 0b1000000000000000] =
    .instr (.wmem (.lit 13) (.reg 0)) [] ∧
  decode [0b0000000000010001, 0b0000000000000101] = .instr (.call (.lit 5)) [] ∧
  decode [0b0000000000010011, 0b0000000001000001] = .instr (.out (.lit 65)) [] ∧
  decode [0b0000000000010100, 0b1000000000000011] = .instr (.inp 3) []

/-- R75: a value operand word up to 32767 is that literal, 32768 to 32775 the content of register
word - 32768 as it is, and any other is BAD_OPERAND, wherever the decoder reads a value operand. -/
def Obligations.ValueOperandWordsMeanLiteralsOrRegisters : Prop :=
  ∀ (s : State) (w : Word) (k : Nat) (ws : List Word) (f : Operand → List Word → Decoded),
    (w.toNat ≤ 32767 → ∃ o, takeVal k (w :: ws) f = f o ws ∧ s.value o = w) ∧
    (∀ q : Reg, w.toNat = 32768 + q.val → ∃ o, takeVal k (w :: ws) f = f o ws ∧ s.value o = s.reg q) ∧
    (32776 ≤ w.toNat → takeVal k (w :: ws) f = .rejected (.badOperand w)) ∧
    s.raiseDecode (.badOperand w) = s.raise .badOperand w

/-- A destination operand word names the register word - 32768, and outside 32768 to 32775 it is
BAD_DEST (section 2). The place of the check is the spec's decision D8 (assumption log 10). -/
def Obligations.DestinationWordsMustNameARegister : Prop :=
  ∀ (s : State) (w : Word) (k : Nat) (ws : List Word) (f : Reg → List Word → Decoded),
    (∀ q : Reg, w.toNat = 32768 + q.val → takeDst k (w :: ws) f = f q ws) ∧
    (w.toNat ≤ 32767 ∨ 32776 ≤ w.toNat → takeDst k (w :: ws) f = .rejected (.badDest w)) ∧
    s.raiseDecode (.badDest w) = s.raise .badDest w

/-- R90: an operand word with bit 15 clear is a literal of its 15 low bits, zero extended; a literal
cannot be a destination; and a value above 32767 reaches an instruction only as a register's content. -/
def Obligations.LiteralsAreFifteenBits : Prop :=
  ∀ (s : State) (w : Word),
    (w.getLsbD 15 = false → ∃ o, Operand.ofWord? w = some o ∧
      (s.value o).toNat = (w.setWidth 15 : BitVec 15).toNat ∧ Reg.ofWord? w = none) ∧
    ∀ o, Operand.ofWord? w = some o → 32767 < (s.value o).toNat → ∃ q, o = .reg q

/-! ## The step -/

/-- When the words at the pc are those of a well-formed instruction, the step is that instruction's
meaning on the state with status Running (R78). The meaning moves the pc past the words itself. That
AwaitingInput runs as Running does is decision D14 (assumption log 16), that exec takes the state at
the boundary is the model's form (log 31). -/
def Obligations.StepRunsTheDecodedInstruction : Prop :=
  ∀ (s : State) (i : Instr), s.active = true → i.wellFormed = true →
    s.mem.holds s.pc.toNat (encode i) → step s = exec i (s.setStatus .running)

/-- The step, which decodes first and then executes the instruction, is for every state the
pseudocode's step, which fetches, checks and resolves word by word and executes from the words
(30_encoding.md section 3 with the instruction rules and 60_exceptions.md section 3; it rests on the
spec's decisions these carry, D2 to D9, D14, D15, D17, D19 and D21, assumption logs 4 to 11, 16, 17,
19, 20, 22). It rests further on D1, D12, D13, D22, D23 and D26 (assumption logs 3, 14, 15, 23, 24
and 27), and the model's forms are logs 1, 28, 31 and 32. -/
def Obligations.StepFollowsThePseudocode : Prop :=
  ∀ s : State, step s = .next (Sys2Proof.Pseudocode.step s)

/-- Every step answers a state, and so does every meaning: nothing stops the model, neither a fault
nor a refusal (assumption log 28: the model takes a fatal error as a next state). That an ended run
answers its own state is decision D17 (assumption log 19). -/
def Obligations.EveryStepAnswersAState : Prop :=
  (∀ s : State, ∃ t, step s = .next t) ∧ ∀ (i : Instr) (s : State), ∃ t, exec i s = .next t

/-- R82: an opcode word of 22 to 65535, a register's operand word included, is BAD_OPCODE with
that word, whatever words follow it. -/
def Obligations.InvalidOpcodeWordsAreFatal : Prop :=
  ∀ (s : State) (op : Word), s.active = true → s.pc.toNat ≤ 32767 → s.mem.readCell s.pc.toNat = op →
    21 < op.toNat → ∃ t, step s = .next t ∧ t.status = .fatal ∧ t.fault.cause = .badOpcode ∧
      t.fault.word = op

/-- A fetch above 32767 is FETCH_ADDR at once, with fault_pc and fault_word that pc and the pc left
there (10_state.md section 2; the spec's decision D3, assumption log 5). The state raised is
decision D7 and the record's fields D9 (assumption logs 9 and 11). -/
def Obligations.FetchAboveTheTopIsFatal : Prop :=
  ∀ s : State, s.active = true → 32767 < s.pc.toNat → step s = .next (s.raise .fetchAddr s.pc)

/-- A decoded instruction's words end at address 32767 at the latest, so the pc never wraps: moving
past them gives at most 32768 (10_state.md section 2; decision D3, assumption log 5). -/
def Obligations.ThePcDoesNotWrap : Prop :=
  ∀ (s : State) (i : Instr) (rest : List Word), s.fetch = .instr i rest →
    s.pc.toNat + (encode i).length ≤ 32768 ∧
      (s.pc + BitVec.ofNat 16 (encode i).length).toNat = s.pc.toNat + (encode i).length

/-! ## Results and frames, each with its completion -/

/-- `set` copies the value whole and changes nothing but its register and the pc (41_set_stack.md section
of R110; that a value above 32767 is copied whole is decision D2, assumption log 4). -/
def Obligations.SetCopiesItsValue : Prop :=
  ∀ (d : Reg) (v : Operand) (s : State), ∃ t, exec (.set d v) s = .next t ∧ onlyReg s t d (s.value v) 3

/-- `eq` and `gt` give exactly 1 or 0 by the unsigned comparison of the whole 16-bit values (42_compare.md;
whole values: decision D2, assumption log 4). -/
def Obligations.ComparisonsGiveOneOrZero : Prop :=
  ∀ (d : Reg) (a b : Operand) (s : State),
    (∃ t, exec (.eq d a b) s = .next t ∧ onlyReg s t d (if s.value a = s.value b then 1 else 0) 4) ∧
    ∃ t, exec (.gt d a b) s = .next t ∧
      onlyReg s t d (if (s.value b).toNat < (s.value a).toNat then 1 else 0) 4

/-- `add` and `mult` give the exact sum and product modulo 32768, below 32768 for every 16-bit operand
(44_alu.md; operands above 32767: decision D2, assumption log 4). -/
def Obligations.AddAndMultReduceModulo32768 : Prop :=
  ∀ (d : Reg) (a b : Operand) (s : State),
    (∃ t, exec (.add d a b) s = .next t ∧ (t.reg d).toNat < 32768 ∧
      onlyReg s t d (BitVec.ofNat 16 (((s.value a).toNat + (s.value b).toNat) % 32768)) 4) ∧
    ∃ t, exec (.mult d a b) s = .next t ∧ (t.reg d).toNat < 32768 ∧
      onlyReg s t d (BitVec.ofNat 16 (((s.value a).toNat * (s.value b).toNat) % 32768)) 4

/-- `mod` gives the remainder for a divisor above 0: below the divisor, and the dividend less a multiple of it; not
reduced modulo 32768 (44_alu.md section of R143; decisions D2 and D19, assumption logs 4 and 20). -/
def Obligations.ModGivesTheRemainder : Prop :=
  ∀ (d : Reg) (a b : Operand) (s : State), s.value b ≠ 0 →
    ∃ t q, exec (.mod d a b) s = .next t ∧ (t.reg d).toNat < (s.value b).toNat ∧
      (s.value a).toNat = q * (s.value b).toNat + (t.reg d).toNat ∧ onlyReg s t d (t.reg d) 4

/-- `and`, `or` and `not` bit by bit: bit 15 is clear, every lower bit is the operation's (44_alu.md; `not`
in both readings of C2; operands above 32767: decision D2, assumption log 4). -/
def Obligations.BitwiseOperationsClearBitFifteen : Prop :=
  ∀ (d : Reg) (a b : Operand) (s : State),
    (∃ t, exec (.and d a b) s = .next t ∧ onlyReg s t d (t.reg d) 4 ∧ ∀ i, (t.reg d).getLsbD i =
      (decide (i < 15) && ((s.value a).getLsbD i && (s.value b).getLsbD i))) ∧
    (∃ t, exec (.or d a b) s = .next t ∧ onlyReg s t d (t.reg d) 4 ∧ ∀ i, (t.reg d).getLsbD i =
      (decide (i < 15) && ((s.value a).getLsbD i || (s.value b).getLsbD i))) ∧
    ∃ t, exec (.not d a) s = .next t ∧ onlyReg s t d (t.reg d) 3 ∧
      (t.reg d).toNat = 32767 - (s.value a).toNat % 32768 ∧
      ∀ i, (t.reg d).getLsbD i = (decide (i < 15) && !(s.value a).getLsbD i)

/-- `rmem` copies the cell at the resolved address whole and changes nothing else (45_memory_access.md; the
range of the address is decision D4, assumption log 6). -/
def Obligations.RmemReadsTheAddressedCell : Prop :=
  ∀ (d : Reg) (a : Operand) (s : State), (s.value a).toNat ≤ 32767 →
    ∃ t, exec (.rmem d a) s = .next t ∧ onlyReg s t d (s.mem.readCell (s.value a).toNat) 3

/-- `wmem` writes the whole value to the cell at the resolved address and no other byte of memory; above
32767 it raises MEM_ADDR and writes nothing; and no other instruction writes memory (20_memory.md
section 1, 45_memory_access.md). That the address operand is resolved is the spec's decision D21
(assumption log 22), the whole value D2 (log 4), MEM_ADDR D4 (log 6). The state is one whose memory
is canonical (the invariant `StepsKeepTheInvariant` states). -/
def Obligations.MemoryIsWrittenByWmemAlone : Prop :=
  (∀ (a v : Operand) (s : State), s.mem.wf = true → (s.value a).toNat ≤ 32767 →
    ∃ t, exec (.wmem a v) s = .next t ∧ t.mem.readCell (s.value a).toNat = s.value v ∧
      (∀ c, c ≠ (s.value a).toNat → t.mem.readCell c = s.mem.readCell c) ∧
      (∀ k, k ≠ 2 * (s.value a).toNat → k ≠ 2 * (s.value a).toNat + 1 →
        t.mem.readByte k = s.mem.readByte k) ∧
      t.pc = s.pc + 3 ∧ sameRegs s t ∧ t.stack = s.stack ∧ sameStatus s t ∧ samePorts s t) ∧
  (∀ (a v : Operand) (s : State), 32767 < (s.value a).toNat →
    raises (exec (.wmem a v) s) .memAddr ∧ ∀ t, exec (.wmem a v) s = .next t → sameMem s t) ∧
  ∀ (i : Instr) (s t : State), (∀ a v, i ≠ .wmem a v) → exec i s = .next t → sameMem s t

/-- `push` puts the resolved value on top of the stack, where there is room (41_set_stack.md;
STACK_DEPTH is decision D6, assumption log 8). That a value above 32767 is pushed whole is decision
D2 (assumption log 4). -/
def Obligations.PushStacksItsValue : Prop :=
  ∀ (v : Operand) (s : State), s.stackFull = false →
    ∃ t, exec (.push v) s = .next t ∧ t.stack = s.value v :: s.stack ∧ t.pc = s.pc + 2 ∧
      sameRegs s t ∧ sameMem s t ∧ sameStatus s t ∧ samePorts s t

/-- On a stack with an entry, `pop` takes the top into its register and `ret` takes it into the pc; on
the empty stack `pop` raises STACK_EMPTY and `ret` halts normally; nothing else changes
(10_state.md section 3, 41_set_stack.md, 46_call_ret.md). That `ret` writes the popped value to the
pc unchecked is the spec's decision D3 (assumption log 5), that a value above 32767 is moved whole D2
(log 4), the cause's name D9 (log 11). -/
def Obligations.PopAndRetTakeTheTop : Prop :=
  ∀ (d : Reg) (s : State),
    (∀ v rest, s.stack = v :: rest →
      (∃ t, exec (.pop d) s = .next t ∧ t.stack = rest ∧ t.reg d = v ∧
        (∀ r, r ≠ d → t.reg r = s.reg r) ∧ t.pc = s.pc + 2 ∧ sameMem s t ∧ sameStatus s t ∧
        samePorts s t) ∧
      ∃ t, exec .ret s = .next t ∧ t.stack = rest ∧ t.pc = v ∧ sameRegs s t ∧ sameMem s t ∧
        sameStatus s t ∧ samePorts s t) ∧
    (s.stack = [] → raises (exec (.pop d) s) .stackEmpty ∧
      ∃ t, exec .ret s = .next t ∧ t.status = .halted ∧ t.fault = s.fault ∧ t.stack = [] ∧
        sameRegs s t ∧ sameMem s t ∧ samePorts s t)

/-- `jmp` always, `jt` on a nonzero value and `jf` on zero write their resolved target to the pc; else the
pc moves on; nothing else changes (43_jump.md; unchecked targets: decision D3, whole-value tests: D2,
assumption logs 5 and 4). -/
def Obligations.JumpsChangeOnlyThePc : Prop :=
  ∀ (a v : Operand) (s : State),
    (∃ t, exec (.jmp v) s = .next t ∧ onlyPc s t (s.value v)) ∧
    (∃ t, exec (.jt a v) s = .next t ∧ onlyPc s t (if s.value a = 0 then s.pc + 3 else s.value v)) ∧
    ∃ t, exec (.jf a v) s = .next t ∧ onlyPc s t (if s.value a = 0 then s.value v else s.pc + 3)

/-- `call` stacks the address of the next instruction and jumps to its target, resolved before the
push, where there is room (46_call_ret.md; STACK_DEPTH: decision D6, assumption log 8). The
unchecked target is decision D3 (assumption log 5). -/
def Obligations.CallStacksTheReturnAddress : Prop :=
  ∀ (v : Operand) (s : State), s.stackFull = false →
    ∃ t, exec (.call v) s = .next t ∧ t.stack = (s.pc + 2) :: s.stack ∧ t.pc = s.value v ∧
      sameRegs s t ∧ sameMem s t ∧ sameStatus s t ∧ samePorts s t

/-- `call` and at once `ret` return to the instruction after the `call`, with the stack as before
(46_call_ret.md, the document's own property). STACK_DEPTH is decision D6 (assumption log 8). -/
def Obligations.CallThenRetReturns : Prop :=
  ∀ (v : Operand) (s t : State), s.stackFull = false → exec (.call v) s = .next t →
    ∃ u, exec .ret t = .next u ∧ onlyPc s u (s.pc + 2)

/-- `out` appends the low 8 bits of its value to the output stream and changes nothing else
(47_io.md; values above 32767: decision D26, assumption log 27). The form of the output port is
decision D12 (assumption log 14). -/
def Obligations.OutAppendsOneByte : Prop :=
  ∀ (v : Operand) (s : State), ∃ t, exec (.out v) s = .next t ∧
    t.output = s.output ++ [BitVec.ofNat 8 ((s.value v).toNat % 256)] ∧ t.input = s.input ∧
    t.inputClosed = s.inputClosed ∧ t.params = s.params ∧ t.pc = s.pc + 2 ∧ sameRegs s t ∧
    t.stack = s.stack ∧ sameMem s t ∧ sameStatus s t

/-- `in` with a word on offer takes the front word, whole, into its register and removes it (47_io.md; the
width of a word: decision D13, assumption log 15). -/
def Obligations.InTakesTheFrontWord : Prop :=
  ∀ (d : Reg) (s : State) (w : Word) (rest : List Word), s.input = w :: rest →
    ∃ t, exec (.inp d) s = .next t ∧ t.input = rest ∧ t.reg d = w ∧
      (∀ r, r ≠ d → t.reg r = s.reg r) ∧ t.pc = s.pc + 2 ∧ t.stack = s.stack ∧ sameMem s t ∧
      sameStatus s t ∧ t.output = s.output ∧ t.inputClosed = s.inputClosed ∧ t.params = s.params

/-- `in` with no word on offer: INPUT_CLOSED with its opcode word if the source is closed, else
nothing changes but the status, AwaitingInput (47_io.md; decision D15, assumption log 17). The state
raised is decision D7 and its record D9, AwaitingInput as a status is D14 (assumption logs 9, 11 and
16). -/
def Obligations.InWithoutInputWaitsOrIsFatal : Prop :=
  ∀ (d : Reg) (s : State), s.input = [] →
    (s.inputClosed = true → exec (.inp d) s = .next (s.raise .inputClosed 20)) ∧
    (s.inputClosed = false → exec (.inp d) s = .next (s.setStatus .awaitingInput))

/-- `halt` sets the status Halted, `noop` nothing; both move the pc past their word and change nothing
else (40_halt_noop.md); `ret` on the empty stack ends exactly as `halt` (46_call_ret.md, derived there). -/
def Obligations.HaltAndNoopChangeNothingElse : Prop :=
  ∀ s : State,
    (∃ t, exec .halt s = .next t ∧ t.status = .halted ∧ t.fault = s.fault ∧ t.pc = s.pc + 1 ∧
      sameRegs s t ∧ t.stack = s.stack ∧ sameMem s t ∧ samePorts s t) ∧
    (∃ t, exec .noop s = .next t ∧ onlyPc s t (s.pc + 1)) ∧
    (s.stack = [] → exec .ret s = exec .halt s)

/-! ## Whole rules of single instructions, from the words in memory -/

/-- The whole rule of `noop` (40_halt_noop.md), from its word: the step moves the pc by one and does
nothing else; at 32767 it leaves the pc at 32768, and the next fetch is FETCH_ADDR (decision D3,
assumption log 5). That AwaitingInput runs as Running does is decision D14 (assumption log 16). -/
def Obligations.NoopStepMovesThePcByOne : Prop :=
  ∀ s : State, s.active = true →
    (32767 < s.pc.toNat → raises (step s) .fetchAddr) ∧
    (s.pc.toNat ≤ 32767 → s.mem.readCell s.pc.toNat = 21 →
      ∃ t, step s = .next t ∧ t = { s with pc := s.pc + 1, status := .running } ∧
        (s.pc.toNat = 32767 → t.pc.toNat = 32768 ∧ raises (step t) .fetchAddr))

/-- The whole rule of `push` (41_set_stack.md), from its words, with its exceptions in order
(decisions D2, D3, D6 and D8, assumption logs 4, 5, 8 and 10). That AwaitingInput runs as Running
does is decision D14 (assumption log 16). -/
def Obligations.PushStepFollowsItsRule : Prop :=
  ∀ s : State, s.active = true →
    (32767 < s.pc.toNat → raises (step s) .fetchAddr) ∧
    (s.pc.toNat ≤ 32767 → s.mem.readCell s.pc.toNat = 2 →
      withVal s 1 (step s) fun v =>
        (s.params.stackDepth = some s.stack.length → raises (step s) .stackFull) ∧
        ((∀ n, s.params.stackDepth = some n → s.stack.length < n) →
          step s = .next { s with stack := v :: s.stack, pc := s.pc + 2, status := .running }))

/-- The whole rule of `jf` (43_jump.md), from its words, with its exceptions in order (decisions D2,
D3 and D8, assumption logs 4, 5 and 10). That AwaitingInput runs as Running does is decision D14
(assumption log 16). -/
def Obligations.JfStepFollowsItsRule : Prop :=
  ∀ s : State, s.active = true →
    (32767 < s.pc.toNat → raises (step s) .fetchAddr) ∧
    (s.pc.toNat ≤ 32767 → s.mem.readCell s.pc.toNat = 8 →
      withVal s 1 (step s) fun a => withVal s 2 (step s) fun target =>
        step s = .next { s with pc := if a = 0 then target else s.pc + 3, status := .running })

/-- The whole rule of `and` (44_alu.md), from its words, with its exceptions in order (decisions D2,
D3 and D8, assumption logs 4, 5 and 10). That AwaitingInput runs as Running does is decision D14
(assumption log 16). -/
def Obligations.AndStepFollowsItsRule : Prop :=
  ∀ s : State, s.active = true →
    (32767 < s.pc.toNat → raises (step s) .fetchAddr) ∧
    (s.pc.toNat ≤ 32767 → s.mem.readCell s.pc.toNat = 12 →
      withDst s 1 (step s) fun d => withVal s 2 (step s) fun a => withVal s 3 (step s) fun b =>
        step s = .next { s with
          regs := s.regs.put d ((a &&& b) &&& 32767)
          pc := s.pc + 4
          status := .running })

/-! ## Fatal errors -/

/-- When the execute-stage checks trap, and what they record (60_exceptions.md section 1; decisions
D4 to D7 and D9, assumption logs 6 to 9 and 11; `wmem`'s resolved address is D21, log 22). Full
meaning at least STACK_DEPTH entries is the model's form (assumption log 32). -/
def Obligations.ExecuteStageChecksTrap : Prop :=
  ∀ (d : Reg) (a b : Operand) (s : State),
    (s.value b = 0 → exec (.mod d a b) s = .next (s.raise .divZero b.word)) ∧
    (32767 < (s.value a).toNat → exec (.rmem d a) s = .next (s.raise .memAddr (s.value a)) ∧
      exec (.wmem a b) s = .next (s.raise .memAddr (s.value a))) ∧
    (s.stack = [] → exec (.pop d) s = .next (s.raise .stackEmpty 3)) ∧
    (∀ n, s.params.stackDepth = some n → n ≤ s.stack.length →
      exec (.push a) s = .next (s.raise .stackFull 2) ∧
      exec (.call a) s = .next (s.raise .stackFull 17))

/-- A fatal error is precise: a step that ends in Fatal leaves every register, the memory, the stack,
the ports and the pc as they were, and records a cause with the pc (60_exceptions.md section 3, decision
D7, assumption log 9). -/
def Obligations.FatalErrorsArePrecise : Prop :=
  ∀ s t : State, s.active = true → step s = .next t → t.status = .fatal →
    t = { s with status := .fatal, fault := t.fault } ∧ t.fault.pc = s.pc ∧ t.fault.cause ≠ .none

/-- A fatal error transfers control nowhere, saves nothing and pushes nothing; the engine stops
(60_exceptions.md section 3). That the pc, the registers and memory are as before is the spec's
decision D7 (assumption log 9), that further steps change nothing D17 (log 19). -/
def Obligations.FatalErrorsTransferControlNowhere : Prop :=
  ∀ s t : State, s.active = true → step s = .next t → t.status = .fatal →
    t.pc = s.pc ∧ t.stack = s.stack ∧ sameRegs s t ∧ sameMem s t ∧
      ∀ n, Sys2Proof.core.run n t = .next t

/-- Rejections and their causes: a step that ends in Fatal either could not decode (causes 1, 2, 3,
7) or its instruction raised its own (60_exceptions.md sections 1 and 2). Every decode check before
the instruction's own cause is decision D8 (assumption log 10), the cause names are D9 (log 11), the
raised state D7 (log 9); FETCH_ADDR is D3, MEM_ADDR D4, DIV_ZERO D5, STACK_FULL D6 and INPUT_CLOSED
D15 (logs 5 to 8 and 17). -/
def Obligations.EveryFatalStepHasOneCause : Prop :=
  ∀ s t : State, s.active = true → step s = .next t → t.status = .fatal →
    (∃ e, s.fetch = .rejected e ∧ t = (s.setStatus .running).raiseDecode e ∧
      t.fault.cause ∈ [Cause.badOpcode, .badOperand, .badDest, .fetchAddr]) ∨
    ∃ i rest, s.fetch = .instr i rest ∧ executeCause i = some t.fault.cause

/-- A state whose status is Halted or Fatal never changes again, however often it is stepped
(60_exceptions.md section 3; decision D17, assumption log 19). -/
def Obligations.EndedRunsStayAsTheyAre : Prop :=
  ∀ (n : Nat) (s : State), s.ended = true → Sys2Proof.core.run n s = .next s

/-- R208: `halt`, and `ret` with an empty stack, end in Halted with no fatal error recorded. The state is
one the invariant holds of. -/
def Obligations.NormalEndsRecordNoFault : Prop :=
  ∀ s : State, s.inv = true → s.status = .running →
    (∃ t, exec .halt s = .next t ∧ t.status = .halted ∧ t.fault.cause.code = 0) ∧
    (s.stack = [] → ∃ t, exec .ret s = .next t ∧ t.status = .halted ∧ t.fault.cause.code = 0)

/-! ## Waiting for input -/

/-- A step ends in AwaitingInput only by an `in` that found no word and an open source: the cell at the
pc is the `in` opcode, and nothing but the status has changed (10_state.md section 4; decision D14,
assumption log 16). -/
def Obligations.AwaitingInputIsAnAbortedIn : Prop :=
  ∀ s t : State, step s = .next t → t.status = .awaitingInput →
    t = { s with status := .awaitingInput } ∧ t.mem.readCell t.pc.toNat = 20 ∧ t.input = [] ∧
      t.inputClosed = false

/-- Retrying an aborted `in` with still no input changes nothing, however often; and once a word is
supplied the retried `in` takes it (47_io.md section 3; decision D14, assumption log 16). -/
def Obligations.AbortedInIsRetriedFromScratch : Prop :=
  ∀ s t : State, s.active = true → step s = .next t → t.status = .awaitingInput →
    (∀ n, Sys2Proof.core.run n t = .next t) ∧
    ∀ (w : Word) (ws : List Word) (u : State), envMove (.supply (w :: ws)) t = some u →
      ∃ v q, step u = .next v ∧ v.status = .running ∧ v.reg q = w ∧ v.input = ws ∧ v.pc = u.pc + 2

/-! ## What each instruction touches -/

/-- An instruction writes no register but its destination; one without a destination writes none
(10_state.md section 1, R22's list of writers). -/
def Obligations.OnlyTheDestinationRegisterIsWritten : Prop :=
  ∀ (i : Instr) (s t : State), exec i s = .next t → ∀ r, dest? i ≠ some r → t.reg r = s.reg r

/-- An instruction reads no register but those its value operands name: on a register file that agrees
on these it does the same, each register being either left alone in both runs or given the same value
(10_state.md section 1, R22's list of readers). -/
def Obligations.OnlyValueOperandsReadRegisters : Prop :=
  ∀ (i : Instr) (s t : State) (f : RegFile),
    (∀ r, Operand.reg r ∈ values i → f.get r = s.reg r) → exec i s = .next t →
    ∃ u, exec i { s with regs := f } = .next u ∧ u = { t with regs := u.regs } ∧
      ∀ r, (u.reg r = f.get r ∧ t.reg r = s.reg r) ∨ u.reg r = t.reg r

/-- No instruction but `rmem` and `wmem` touches memory: on any other memory it does the same and
leaves that memory as it is; and `rmem` does the same on any memory that has the same word in its
cell (20_memory.md section 1). The range of rmem's address is decision D4 (assumption log 6). -/
def Obligations.OnlyRmemAndWmemTouchMemory : Prop :=
  ∀ (i : Instr) (s t : State) (m : Memory), (∀ a v, i ≠ .wmem a v) →
    (∀ d a, i = .rmem d a → m.readCell (s.value a).toNat = s.mem.readCell (s.value a).toNat) →
    exec i s = .next t → t.mem = s.mem ∧ exec i (s.setMem m) = .next (t.setMem m)

/-- The stack moves by one entry at its top, and only by `push`, `call`, `pop` and `ret`: every
entry below stays (10_state.md section 3: one stack, no instruction reaches an entry but the top).
STACK_DEPTH is decision D6, whole values D2 (assumption logs 8 and 4), the list with its top at the
head is the model's form (log 32). -/
def Obligations.TheStackMovesOnlyAtItsTop : Prop :=
  ∀ (i : Instr) (s t : State), exec i s = .next t →
    t.stack = s.stack ∨
    ((∃ v, i = .push v ∧ t.stack = s.value v :: s.stack) ∨
      (∃ v, i = .call v ∧ t.stack = (s.pc + 2) :: s.stack)) ∨
    (((∃ d, i = .pop d) ∨ i = .ret) ∧ ∃ v, s.stack = v :: t.stack)

/-- The output stream grows by exactly the byte of an `out` and by nothing else, and the supply
shrinks by exactly the word a completed `in` took; nothing else moves the ports (10_state.md section
7). The forms of the ports are decisions D12 and D13, the low byte D26, an in that faults or waits
taking nothing D23 (assumption logs 14, 15, 27 and 24); parameters in State that never change are
logs 8 and 18. -/
def Obligations.PortsMoveOnlyByInAndOut : Prop :=
  ∀ (i : Instr) (s t : State), exec i s = .next t →
    (t.output = s.output ∨ ∃ v, i = .out v ∧ t.output = s.output ++ [lowByte (s.value v)]) ∧
    (t.input = s.input ∨ ∃ d w, i = .inp d ∧ s.input = w :: t.input ∧ t.reg d = w) ∧
    t.inputClosed = s.inputClosed ∧ t.params = s.params

/-- A store is seen by a fetch with nothing needed in between: right after the `wmem`, the words
fetched from any pc have the stored value in its cell, the very next instruction's opcode word
included (70_reset_and_hazards.md section 4; the spec's decision D22, assumption log 23). The
resolved address is decision D21 (log 22), its range D4 (log 6), the whole value D2 (log 4). That
AwaitingInput runs as Running does is decision D14 (log 16). -/
def Obligations.AStoreIsSeenByTheNextFetch : Prop :=
  ∀ (a v : Operand) (s : State), s.mem.wf = true → s.active = true →
    (Instr.wmem a v).wellFormed = true → s.mem.holds s.pc.toNat (encode (.wmem a v)) →
    (s.value a).toNat ≤ 32767 →
    ∃ t, step s = .next t ∧ t.pc.toNat = s.pc.toNat + 3 ∧
      (∀ (p : Word) (k : Nat), k < 4 → p.toNat + k = (s.value a).toNat →
        (t.setPc p).window[k]? = some (s.value v)) ∧
      ((s.value a).toNat = s.pc.toNat + 3 →
        (21 < (s.value v).toNat → raises (step t) .badOpcode) ∧
        (s.value v = 0 → ∃ u, step t = .next u ∧ u.status = .halted))

/-! ## Invariants -/

/-- The reset state meets the invariant. The fault record's reset is decision D9 (log 11); canonical
memory is the model's form (log 1), the parameters' values are logs 8 and 18, the empty image log
30. -/
def Obligations.ResetMeetsTheInvariant : Prop := State.reset.inv = true

/-- Every step keeps the invariant: memory canonical, the fault record and the pc in accord with the
status, at most STACK_DEPTH entries, closed only when empty. Canonical memory is the model's form
(assumption log 1); fault_pc at the pc is decision D7 and the record's fields D9 (logs 9 and 11), an
ended state staying D17 (log 19), the depth bound D6 (log 8), closed only when empty D15 (log 17).
-/
def Obligations.StepsKeepTheInvariant : Prop :=
  ∀ s t : State, s.inv = true → step s = .next t → t.inv = true

/-- Every move of the environment keeps it. The moves standing outside the step is the model's form
(assumption log 29), and so is canonical memory (log 1); reset at any time is decision D25, what the
loader refuses D11, the debug port D16 and D24 (logs 26, 13, 18 and 25); the fault record clause is
D7 and D9 (logs 9 and 11), the depth bound D6 (log 8), the supply D13 and D15 (logs 15 and 17). -/
def Obligations.EnvironmentMovesKeepTheInvariant : Prop :=
  ∀ (s t : State) (e : EnvMove), s.inv = true → envMove e s = some t → t.inv = true

/-- It holds of every state the machine can reach from any reset by any steps and environment moves,
and the parameters are the machine's all along. Parameters in State that never change are assumption
logs 8 and 18 (decisions D6 and D16), steps and moves interleaved log 29, reset at any time decision
D25 (log 26), canonical memory log 1; the fault record clause is D7 and D9 (logs 9 and 11), the
depth bound D6 (log 8), closed only when empty D15 (log 17), an ended state staying D17 (log 19). -/
def Obligations.ReachableStatesMeetTheInvariant : Prop :=
  ∀ (p : Config.Params) (s : State), Reachable p s → s.inv = true ∧ s.params = p

/-- From a Word-clean state every instruction leaves a Word-clean state, but for the three
exceptions: `rmem` of a cell above 32767, `in` of a word above 32767, `call` from the top of memory
(10_state.md section 8, derived there). 16-bit storage is decision D1, whole input words D13, mod
not reduced D19 (assumption logs 3, 15 and 20). -/
def Obligations.InstructionsKeepWordCleanness : Prop :=
  ∀ (i : Instr) (s t : State), i.wellFormed = true → s.wordClean → exec i s = .next t →
    (∀ d a, i = .rmem d a → isWord (s.mem.readCell (s.value a).toNat) = true) →
    (∀ d, i = .inp d → ∀ w ∈ s.input.head?, isWord w = true) →
    (∀ v, i = .call v → isWord (s.pc + 2) = true) → t.wordClean

/-! ## Reset and the environment -/

/-- R246: word k of the image, bytes 2k and 2k + 1, low byte first, goes to cell k as it is, and every
other cell is 0. -/
def Obligations.TheImageIsLoadedVerbatim : Prop :=
  ∀ (p : Config.Params) (image : List Byte) (input : List Word) (closed : Bool) (s : State),
    State.boot p image input closed = some s →
    (∀ (k : Nat) (lo hi : Byte), image[2 * k]? = some lo → image[2 * k + 1]? = some hi →
      s.mem.readCell k = BitVec.ofNat 16 (lo.toNat + 256 * hi.toNat)) ∧
    ∀ k, image.length ≤ 2 * k → s.mem.readCell k = 0

/-- The loader takes an image of even length up to 65536 bytes and refuses any other (70_reset_and_hazards.md
section 2, decision D11, assumption log 13); it also refuses a closed source that holds words
(assumption log 17). -/
def Obligations.TheLoaderRefusesUnfitImages : Prop :=
  ∀ (p : Config.Params) (image : List Byte) (input : List Word) (closed : Bool),
    ((State.boot p image input closed).isSome = true ↔
      image.length % 2 = 0 ∧ image.length ≤ 65536 ∧ (closed = true → input = []))

/-- What a reset leaves (10_state.md section 9; the values but memory's are decision D10, assumption
log 12), and that without an image the first step halts at address 0. The fault record's reset is D9
(log 11), the parameters' values are logs 8 and 18, the empty image in State.reset is log 30. -/
def Obligations.ResetLeavesItsValues : Prop :=
  (∀ (p : Config.Params) (image : List Byte) (input : List Word) (closed : Bool) (s : State),
    State.boot p image input closed = some s →
    (∀ r, s.reg r = 0) ∧ s.pc = 0 ∧ s.stack = [] ∧ s.status = .running ∧ s.fault.cause.code = 0 ∧
      s.fault.pc = 0 ∧ s.fault.word = 0 ∧ s.output = [] ∧ s.input = input) ∧
  State.boot Config.Params.suggested [] [] false = some State.reset ∧
  ∃ t, step State.reset = .next t ∧ t.status = .halted ∧ t.pc = 1

/-- Through the debug port nothing but a register or a cell can change: not the pc, the stack, the
status, the fault record or the ports; the stack cannot be read (on any other stack the access does
and answers the same); and resuming changes nothing (60_exceptions.md section 6). The port and when
it is usable is decision D16, a refused access changing nothing D24 (assumption logs 18 and 25). -/
def Obligations.TheDebugPortOffersNothingElse : Prop :=
  ∀ (a : DebugAccess) (s t : State) (r : DebugReply), debugAccess a s = some (r, t) →
    t.pc = s.pc ∧ t.stack = s.stack ∧ sameStatus s t ∧ samePorts s t ∧ (a = .resume → t = s) ∧
      ∀ l, debugAccess a (s.setStack l) = some (r, t.setStack l)

/-- R217: reading the registers answers x[0] to x[7] and changes nothing. -/
def Obligations.ReadingTheRegistersChangesNothing : Prop :=
  ∀ s : State, s.debuggable = true →
    ∃ f : RegFile, debugAccess .readRegs s = some (.registers f, s) ∧ ∀ q, f.get q = s.reg q

/-- Debug writes: one register, or one cell, with any 16-bit value; an index above 7, an address
above 32767 or a value above 65535 is refused and changes nothing; 32768 does not reach a register
(60_exceptions.md section 6; decision D24, assumption log 25). When the port is usable is D16 (log
18); canonical memory is the model's form (log 1). -/
def Obligations.DebugWritesReachOneRegisterOrCell : Prop :=
  ∀ (s : State) (i a v : Nat), s.debuggable = true → s.mem.wf = true →
    (∀ q : Reg, q.val = i → v ≤ 65535 → ∃ t, debugAccess (.writeReg i v) s = some (.done, t) ∧
      t.reg q = BitVec.ofNat 16 v ∧ (∀ r, r ≠ q → t.reg r = s.reg r) ∧ sameMem s t) ∧
    (a ≤ 32767 → v ≤ 65535 → ∃ t, debugAccess (.writeCell a v) s = some (.done, t) ∧
      (∀ c, t.mem.readCell c = if c = a then BitVec.ofNat 16 v else s.mem.readCell c) ∧
      sameRegs s t) ∧
    (7 < i ∨ 65535 < v → debugAccess (.writeReg i v) s = some (.refused, s)) ∧
    (32767 < a ∨ 65535 < v → debugAccess (.writeCell a v) s = some (.refused, s)) ∧
    (a ≤ 32767 → debugAccess (.readCell a) s = some (.cell (s.mem.readCell a), s)) ∧
    (32767 < a → debugAccess (.readCell a) s = some (.refused, s))

/-- The debug port is usable exactly with DEBUG_PORT and in Running or AwaitingInput (60_exceptions.md
section 6; decision D16, assumption log 18). -/
def Obligations.TheDebugPortIsUsableOnlyInARun : Prop :=
  ∀ (a : DebugAccess) (s : State),
    (debugAccess a s).isSome = true ↔ s.params.debugPort = true ∧ s.ended = false

/-- Supplied words are appended behind those pending, none is removed or reordered, nothing follows
a closed source, and a source closes only when the supply is empty (47_io.md section 3; decision
D13, assumption log 15). The closed condition is decision D15; the moves standing outside the step
is log 29. -/
def Obligations.InputIsSuppliedInOrder : Prop :=
  ∀ (s : State) (ws : List Word),
    (s.inputClosed = false → envMove (.supply ws) s = some (s.setInput (s.input ++ ws))) ∧
    (s.inputClosed = true → envMove (.supply ws) s = none) ∧
    (s.input = [] → envMove .closeInput s = some { s with inputClosed := true }) ∧
    (s.input ≠ [] → envMove .closeInput s = none)
end

