-- ==== Sys2Proof/Laws/State.lean ====
section
/-! SUPPORT. One lemma per field per update of State, true by rfl, so that no later proof unfolds a
record update; and what each update does to the registers and to operand values. -/

namespace Sys2Proof.Machine

section
variable (s : State)

/-! ### setReg -/

@[simp] theorem State.setReg_regs (r : Reg) (v : Word) : (s.setReg r v).regs = s.regs.put r v := rfl
@[simp] theorem State.setReg_pc (r : Reg) (v : Word) : (s.setReg r v).pc = s.pc := rfl
@[simp] theorem State.setReg_stack (r : Reg) (v : Word) : (s.setReg r v).stack = s.stack := rfl
@[simp] theorem State.setReg_mem (r : Reg) (v : Word) : (s.setReg r v).mem = s.mem := rfl
@[simp] theorem State.setReg_status (r : Reg) (v : Word) : (s.setReg r v).status = s.status := rfl
@[simp] theorem State.setReg_fault (r : Reg) (v : Word) : (s.setReg r v).fault = s.fault := rfl
@[simp] theorem State.setReg_output (r : Reg) (v : Word) : (s.setReg r v).output = s.output := rfl
@[simp] theorem State.setReg_input (r : Reg) (v : Word) : (s.setReg r v).input = s.input := rfl
@[simp] theorem State.setReg_inputClosed (r : Reg) (v : Word) : (s.setReg r v).inputClosed = s.inputClosed := rfl
@[simp] theorem State.setReg_params (r : Reg) (v : Word) : (s.setReg r v).params = s.params := rfl

/-! ### setPc -/

@[simp] theorem State.setPc_regs (w : Word) : (s.setPc w).regs = s.regs := rfl
@[simp] theorem State.setPc_pc (w : Word) : (s.setPc w).pc = w := rfl
@[simp] theorem State.setPc_stack (w : Word) : (s.setPc w).stack = s.stack := rfl
@[simp] theorem State.setPc_mem (w : Word) : (s.setPc w).mem = s.mem := rfl
@[simp] theorem State.setPc_status (w : Word) : (s.setPc w).status = s.status := rfl
@[simp] theorem State.setPc_fault (w : Word) : (s.setPc w).fault = s.fault := rfl
@[simp] theorem State.setPc_output (w : Word) : (s.setPc w).output = s.output := rfl
@[simp] theorem State.setPc_input (w : Word) : (s.setPc w).input = s.input := rfl
@[simp] theorem State.setPc_inputClosed (w : Word) : (s.setPc w).inputClosed = s.inputClosed := rfl
@[simp] theorem State.setPc_params (w : Word) : (s.setPc w).params = s.params := rfl
@[simp] theorem State.setPc_reg (w : Word) (q : Reg) : (s.setPc w).reg q = s.reg q := rfl
@[simp] theorem State.setPc_value (w : Word) (o : Operand) : (s.setPc w).value o = s.value o := by
  cases o <;> rfl

/-! ### advance -/

@[simp] theorem State.advance_regs (n : Nat) : (s.advance n).regs = s.regs := rfl
@[simp] theorem State.advance_pc (n : Nat) : (s.advance n).pc = s.pc + BitVec.ofNat 16 n := rfl
@[simp] theorem State.advance_stack (n : Nat) : (s.advance n).stack = s.stack := rfl
@[simp] theorem State.advance_mem (n : Nat) : (s.advance n).mem = s.mem := rfl
@[simp] theorem State.advance_status (n : Nat) : (s.advance n).status = s.status := rfl
@[simp] theorem State.advance_fault (n : Nat) : (s.advance n).fault = s.fault := rfl
@[simp] theorem State.advance_output (n : Nat) : (s.advance n).output = s.output := rfl
@[simp] theorem State.advance_input (n : Nat) : (s.advance n).input = s.input := rfl
@[simp] theorem State.advance_inputClosed (n : Nat) : (s.advance n).inputClosed = s.inputClosed := rfl
@[simp] theorem State.advance_params (n : Nat) : (s.advance n).params = s.params := rfl
@[simp] theorem State.advance_reg (n : Nat) (q : Reg) : (s.advance n).reg q = s.reg q := rfl
@[simp] theorem State.advance_value (n : Nat) (o : Operand) : (s.advance n).value o = s.value o := by
  cases o <;> rfl

/-! ### setStatus -/

@[simp] theorem State.setStatus_regs (st : Status) : (s.setStatus st).regs = s.regs := rfl
@[simp] theorem State.setStatus_pc (st : Status) : (s.setStatus st).pc = s.pc := rfl
@[simp] theorem State.setStatus_stack (st : Status) : (s.setStatus st).stack = s.stack := rfl
@[simp] theorem State.setStatus_mem (st : Status) : (s.setStatus st).mem = s.mem := rfl
@[simp] theorem State.setStatus_status (st : Status) : (s.setStatus st).status = st := rfl
@[simp] theorem State.setStatus_fault (st : Status) : (s.setStatus st).fault = s.fault := rfl
@[simp] theorem State.setStatus_output (st : Status) : (s.setStatus st).output = s.output := rfl
@[simp] theorem State.setStatus_input (st : Status) : (s.setStatus st).input = s.input := rfl
@[simp] theorem State.setStatus_inputClosed (st : Status) : (s.setStatus st).inputClosed = s.inputClosed := rfl
@[simp] theorem State.setStatus_params (st : Status) : (s.setStatus st).params = s.params := rfl
@[simp] theorem State.setStatus_reg (st : Status) (q : Reg) : (s.setStatus st).reg q = s.reg q := rfl
@[simp] theorem State.setStatus_value (st : Status) (o : Operand) : (s.setStatus st).value o = s.value o := by
  cases o <;> rfl

/-! ### setStack -/

@[simp] theorem State.setStack_regs (l : List Word) : (s.setStack l).regs = s.regs := rfl
@[simp] theorem State.setStack_pc (l : List Word) : (s.setStack l).pc = s.pc := rfl
@[simp] theorem State.setStack_stack (l : List Word) : (s.setStack l).stack = l := rfl
@[simp] theorem State.setStack_mem (l : List Word) : (s.setStack l).mem = s.mem := rfl
@[simp] theorem State.setStack_status (l : List Word) : (s.setStack l).status = s.status := rfl
@[simp] theorem State.setStack_fault (l : List Word) : (s.setStack l).fault = s.fault := rfl
@[simp] theorem State.setStack_output (l : List Word) : (s.setStack l).output = s.output := rfl
@[simp] theorem State.setStack_input (l : List Word) : (s.setStack l).input = s.input := rfl
@[simp] theorem State.setStack_inputClosed (l : List Word) : (s.setStack l).inputClosed = s.inputClosed := rfl
@[simp] theorem State.setStack_params (l : List Word) : (s.setStack l).params = s.params := rfl
@[simp] theorem State.setStack_reg (l : List Word) (q : Reg) : (s.setStack l).reg q = s.reg q := rfl
@[simp] theorem State.setStack_value (l : List Word) (o : Operand) : (s.setStack l).value o = s.value o := by
  cases o <;> rfl

/-! ### setMem -/

@[simp] theorem State.setMem_regs (m : Memory) : (s.setMem m).regs = s.regs := rfl
@[simp] theorem State.setMem_pc (m : Memory) : (s.setMem m).pc = s.pc := rfl
@[simp] theorem State.setMem_stack (m : Memory) : (s.setMem m).stack = s.stack := rfl
@[simp] theorem State.setMem_mem (m : Memory) : (s.setMem m).mem = m := rfl
@[simp] theorem State.setMem_status (m : Memory) : (s.setMem m).status = s.status := rfl
@[simp] theorem State.setMem_fault (m : Memory) : (s.setMem m).fault = s.fault := rfl
@[simp] theorem State.setMem_output (m : Memory) : (s.setMem m).output = s.output := rfl
@[simp] theorem State.setMem_input (m : Memory) : (s.setMem m).input = s.input := rfl
@[simp] theorem State.setMem_inputClosed (m : Memory) : (s.setMem m).inputClosed = s.inputClosed := rfl
@[simp] theorem State.setMem_params (m : Memory) : (s.setMem m).params = s.params := rfl
@[simp] theorem State.setMem_reg (m : Memory) (q : Reg) : (s.setMem m).reg q = s.reg q := rfl
@[simp] theorem State.setMem_value (m : Memory) (o : Operand) : (s.setMem m).value o = s.value o := by
  cases o <;> rfl

/-! ### setInput -/

@[simp] theorem State.setInput_regs (l : List Word) : (s.setInput l).regs = s.regs := rfl
@[simp] theorem State.setInput_pc (l : List Word) : (s.setInput l).pc = s.pc := rfl
@[simp] theorem State.setInput_stack (l : List Word) : (s.setInput l).stack = s.stack := rfl
@[simp] theorem State.setInput_mem (l : List Word) : (s.setInput l).mem = s.mem := rfl
@[simp] theorem State.setInput_status (l : List Word) : (s.setInput l).status = s.status := rfl
@[simp] theorem State.setInput_fault (l : List Word) : (s.setInput l).fault = s.fault := rfl
@[simp] theorem State.setInput_output (l : List Word) : (s.setInput l).output = s.output := rfl
@[simp] theorem State.setInput_input (l : List Word) : (s.setInput l).input = l := rfl
@[simp] theorem State.setInput_inputClosed (l : List Word) : (s.setInput l).inputClosed = s.inputClosed := rfl
@[simp] theorem State.setInput_params (l : List Word) : (s.setInput l).params = s.params := rfl
@[simp] theorem State.setInput_reg (l : List Word) (q : Reg) : (s.setInput l).reg q = s.reg q := rfl
@[simp] theorem State.setInput_value (l : List Word) (o : Operand) : (s.setInput l).value o = s.value o := by
  cases o <;> rfl

/-! ### emit -/

@[simp] theorem State.emit_regs (c : Byte) : (s.emit c).regs = s.regs := rfl
@[simp] theorem State.emit_pc (c : Byte) : (s.emit c).pc = s.pc := rfl
@[simp] theorem State.emit_stack (c : Byte) : (s.emit c).stack = s.stack := rfl
@[simp] theorem State.emit_mem (c : Byte) : (s.emit c).mem = s.mem := rfl
@[simp] theorem State.emit_status (c : Byte) : (s.emit c).status = s.status := rfl
@[simp] theorem State.emit_fault (c : Byte) : (s.emit c).fault = s.fault := rfl
@[simp] theorem State.emit_output (c : Byte) : (s.emit c).output = s.output ++ [c] := rfl
@[simp] theorem State.emit_input (c : Byte) : (s.emit c).input = s.input := rfl
@[simp] theorem State.emit_inputClosed (c : Byte) : (s.emit c).inputClosed = s.inputClosed := rfl
@[simp] theorem State.emit_params (c : Byte) : (s.emit c).params = s.params := rfl
@[simp] theorem State.emit_reg (c : Byte) (q : Reg) : (s.emit c).reg q = s.reg q := rfl
@[simp] theorem State.emit_value (c : Byte) (o : Operand) : (s.emit c).value o = s.value o := by
  cases o <;> rfl

/-! ### raise -/

@[simp] theorem State.raise_regs (c : Cause) (w : Word) : (s.raise c w).regs = s.regs := rfl
@[simp] theorem State.raise_pc (c : Cause) (w : Word) : (s.raise c w).pc = s.pc := rfl
@[simp] theorem State.raise_stack (c : Cause) (w : Word) : (s.raise c w).stack = s.stack := rfl
@[simp] theorem State.raise_mem (c : Cause) (w : Word) : (s.raise c w).mem = s.mem := rfl
@[simp] theorem State.raise_status (c : Cause) (w : Word) : (s.raise c w).status = .fatal := rfl
@[simp] theorem State.raise_fault (c : Cause) (w : Word) : (s.raise c w).fault = { cause := c, pc := s.pc, word := w } := rfl
@[simp] theorem State.raise_output (c : Cause) (w : Word) : (s.raise c w).output = s.output := rfl
@[simp] theorem State.raise_input (c : Cause) (w : Word) : (s.raise c w).input = s.input := rfl
@[simp] theorem State.raise_inputClosed (c : Cause) (w : Word) : (s.raise c w).inputClosed = s.inputClosed := rfl
@[simp] theorem State.raise_params (c : Cause) (w : Word) : (s.raise c w).params = s.params := rfl
@[simp] theorem State.raise_reg (c : Cause) (w : Word) (q : Reg) : (s.raise c w).reg q = s.reg q := rfl
@[simp] theorem State.raise_value (c : Cause) (w : Word) (o : Operand) : (s.raise c w).value o = s.value o := by
  cases o <;> rfl

/-! ### resume -/

@[simp] theorem State.resume_regs : (s.resume).regs = s.regs := rfl
@[simp] theorem State.resume_pc : (s.resume).pc = s.pc := rfl
@[simp] theorem State.resume_stack : (s.resume).stack = s.stack := rfl
@[simp] theorem State.resume_mem : (s.resume).mem = s.mem := rfl
@[simp] theorem State.resume_status : (s.resume).status = .running := rfl
@[simp] theorem State.resume_fault : (s.resume).fault = s.fault := rfl
@[simp] theorem State.resume_output : (s.resume).output = s.output := rfl
@[simp] theorem State.resume_input : (s.resume).input = s.input := rfl
@[simp] theorem State.resume_inputClosed : (s.resume).inputClosed = s.inputClosed := rfl
@[simp] theorem State.resume_params : (s.resume).params = s.params := rfl
@[simp] theorem State.resume_reg (q : Reg) : (s.resume).reg q = s.reg q := rfl
@[simp] theorem State.resume_value (o : Operand) : (s.resume).value o = s.value o := by
  cases o <;> rfl

end

/-! ### the register file -/

@[simp] theorem RegFile.get_put (f : RegFile) (r q : Reg) (v : Word) :
    (f.put r v).get q = if q = r then v else f.get q := by
  fin_cases r <;> fin_cases q <;> rfl

theorem RegFile.ext_get {f g : RegFile} (h : ∀ r, f.get r = g.get r) : f = g := by
  cases f; cases g
  have h0 := h 0; have h1 := h 1; have h2 := h 2; have h3 := h 3
  have h4 := h 4; have h5 := h 5; have h6 := h 6; have h7 := h 7
  simp only [RegFile.get] at *
  simp_all

/-- A register reads the value last written to it, whole (10_state.md R20). -/
theorem State.setReg_reg (s : State) (r q : Reg) (v : Word) :
    (s.setReg r v).reg q = if q = r then v else s.reg q := RegFile.get_put s.regs r q v

@[simp] theorem State.setReg_reg_self (s : State) (r : Reg) (v : Word) : (s.setReg r v).reg r = v := by
  simp [State.setReg_reg]

@[simp] theorem State.setReg_reg_of_ne (s : State) {r q : Reg} (v : Word) (h : q ≠ r) :
    (s.setReg r v).reg q = s.reg q := by
  simp [State.setReg_reg, h]

/-- A running state resumes as itself. -/
theorem State.resume_of_running {s : State} (h : s.status = .running) : s.resume = s := by
  cases s; simp_all [State.resume, State.setStatus]

@[simp] theorem State.value_lit (s : State) (n : Word) : s.value (.lit n) = n := rfl
@[simp] theorem State.value_reg (s : State) (r : Reg) : s.value (.reg r) = s.reg r := rfl

/-- Two states agree when they agree in every field. -/
theorem State.ext_fields {s t : State} (h1 : s.regs = t.regs) (h2 : s.pc = t.pc) (h3 : s.stack = t.stack)
    (h4 : s.mem = t.mem) (h5 : s.status = t.status) (h6 : s.fault = t.fault) (h7 : s.output = t.output)
    (h8 : s.input = t.input) (h9 : s.inputClosed = t.inputClosed) (h10 : s.params = t.params) : s = t := by
  cases s; cases t; simp_all

end Sys2Proof.Machine
end

