-- ==== Sys2Proof/Laws/Exec.lean ====
section
/-! SUPPORT. What each shared operation can answer, said once, and each meaning as its arm of exec. -/

namespace Sys2Proof.Machine

/-- What a push can do: STACK_FULL, or the value on top and then the rest of the instruction (R26). -/
theorem State.pushThen_cases (s : State) (op v : Word) (k : State → State) :
    (s.stackFull = true ∧ s.pushThen op v k = .next (s.raise .stackFull op)) ∨
    (s.stackFull = false ∧ s.pushThen op v k = .next (k (s.setStack (v :: s.stack)))) := by
  cases h : s.stackFull <;> simp [State.pushThen, State.fatal, h]

/-- What a data access can do: MEM_ADDR, or the access at a cell address (R150, R151). -/
theorem State.withAddr_cases (s : State) (ea : Word) (k : Nat → Result) :
    (32767 < ea.toNat ∧ s.withAddr ea k = .next (s.raise .memAddr ea)) ∨
    (ea.toNat ≤ 32767 ∧ s.withAddr ea k = k ea.toNat) := by
  by_cases h : ea.toNat ≤ 32767
  · exact .inr ⟨h, by simp [State.withAddr, h]⟩
  · exact .inl ⟨by omega, by simp [State.withAddr, State.fatal, h]⟩

/-- A stack is full exactly when it has a bound and has reached it. -/
theorem State.stackFull_eq_true {s : State} :
    s.stackFull = true ↔ ∃ n, s.params.stackDepth = some n ∧ n ≤ s.stack.length := by
  unfold State.stackFull
  cases s.params.stackDepth with
  | none => simp
  | some n => simp

theorem State.stackFull_eq_false {s : State} :
    s.stackFull = false ↔ ∀ n, s.params.stackDepth = some n → s.stack.length < n := by
  unfold State.stackFull
  cases s.params.stackDepth with
  | none => simp
  | some n => simp

theorem nonzero_eq_true {a : Word} : nonzero a = true ↔ a ≠ 0 := by
  simp only [nonzero, decide_eq_true_eq, ne_eq, not_iff_not]
  constructor
  · intro h; exact BitVec.eq_of_toNat_eq (by simpa using h)
  · rintro rfl; rfl

theorem nonzero_eq_false {a : Word} : nonzero a = false ↔ a = 0 := by
  have h := nonzero_eq_true (a := a)
  cases hn : nonzero a <;> simp_all

/-- What `mod` can do: DIV_ZERO, or the remainder (R143). -/
theorem execMod_cases (d : Reg) (a b : Operand) (s : State) :
    (s.value b = 0 ∧ execMod d a b s = .next (s.raise .divZero b.word)) ∨
    (s.value b ≠ 0 ∧ execMod d a b s = s.finishReg d (aluMod (s.value a) (s.value b)) 4) := by
  by_cases h : s.value b = 0
  · exact .inl ⟨h, by simp [execMod, nonzero_eq_false.mpr h, State.fatal]⟩
  · exact .inr ⟨h, by simp [execMod, nonzero_eq_true.mpr h]⟩

/-- What `pop` can do: STACK_EMPTY, or the top into the register (R112). -/
theorem execPop_cases (d : Reg) (s : State) :
    (s.stack = [] ∧ execPop d s = .next (s.raise .stackEmpty 3)) ∨
    (∃ v rest, s.stack = v :: rest ∧ execPop d s = (s.setStack rest).finishReg d v 2) := by
  cases h : s.stack with
  | nil => exact .inl ⟨rfl, by simp [execPop, h, State.fatal]⟩
  | cons v rest => exact .inr ⟨v, rest, rfl, by simp [execPop, h]⟩

/-- What `ret` can do: a normal end, or a jump to the top of the stack (R161). -/
theorem execRet_cases (s : State) :
    (s.stack = [] ∧ execRet s = .next ((s.setStatus .halted).advance 1)) ∨
    (∃ v rest, s.stack = v :: rest ∧ execRet s = .next ((s.setStack rest).setPc v)) := by
  cases h : s.stack with
  | nil => exact .inl ⟨rfl, by simp [execRet, h]⟩
  | cons v rest => exact .inr ⟨v, rest, rfl, by simp [execRet, h]⟩

/-- What `in` can do: take the front word, INPUT_CLOSED, or wait (R171). -/
theorem execInp_cases (d : Reg) (s : State) :
    (∃ w rest, s.input = w :: rest ∧ execInp d s = (s.setInput rest).finishReg d w 2) ∨
    (s.input = [] ∧ s.inputClosed = true ∧ execInp d s = .next (s.raise .inputClosed 20)) ∨
    (s.input = [] ∧ s.inputClosed = false ∧ execInp d s = .next (s.setStatus .awaitingInput)) := by
  cases h : s.input with
  | cons w rest => exact .inl ⟨w, rest, rfl, by simp [execInp, h]⟩
  | nil => cases hc : s.inputClosed <;> simp [execInp, h, hc, State.fatal]

/-- What `push` can do (R111). -/
theorem execPush_cases (v : Operand) (s : State) :
    (s.stackFull = true ∧ execPush v s = .next (s.raise .stackFull 2)) ∨
    (s.stackFull = false ∧ execPush v s = .next ((s.setStack (s.value v :: s.stack)).advance 2)) :=
  State.pushThen_cases s 2 (s.value v) fun t => t.advance 2

/-- What `call` can do (R160). -/
theorem execCall_cases (v : Operand) (s : State) :
    (s.stackFull = true ∧ execCall v s = .next (s.raise .stackFull 17)) ∨
    (s.stackFull = false ∧
      execCall v s = .next ((s.setStack ((s.pc + 2) :: s.stack)).setPc (s.value v))) :=
  State.pushThen_cases s 17 (s.pc + 2) fun t => t.setPc (s.value v)

/-- What `rmem` can do (R150). -/
theorem execRmem_cases (d : Reg) (a : Operand) (s : State) :
    (32767 < (s.value a).toNat ∧ execRmem d a s = .next (s.raise .memAddr (s.value a))) ∨
    ((s.value a).toNat ≤ 32767 ∧
      execRmem d a s = s.finishReg d (s.mem.readCell (s.value a).toNat) 3) :=
  State.withAddr_cases s (s.value a) fun ea => s.finishReg d (s.mem.readCell ea) 3

/-- What `wmem` can do (R151). -/
theorem execWmem_cases (a v : Operand) (s : State) :
    (32767 < (s.value a).toNat ∧ execWmem a v s = .next (s.raise .memAddr (s.value a))) ∨
    ((s.value a).toNat ≤ 32767 ∧ execWmem a v s =
      .next ((s.setMem (s.mem.writeCell (s.value a).toNat (s.value v))).advance 3)) :=
  State.withAddr_cases s (s.value a) fun ea =>
    .next ((s.setMem (s.mem.writeCell ea (s.value v))).advance 3)

/-- What `jt` can do (R131). -/
theorem execJt_cases (a v : Operand) (s : State) :
    (s.value a ≠ 0 ∧ execJt a v s = .next (s.setPc (s.value v))) ∨
    (s.value a = 0 ∧ execJt a v s = .next (s.advance 3)) := by
  by_cases h : s.value a = 0
  · exact .inr ⟨h, by rw [execJt, nonzero_eq_false.mpr h]; rfl⟩
  · exact .inl ⟨h, by rw [execJt, nonzero_eq_true.mpr h]; rfl⟩

/-- What `jf` can do (R132). -/
theorem execJf_cases (a v : Operand) (s : State) :
    (s.value a ≠ 0 ∧ execJf a v s = .next (s.advance 3)) ∨
    (s.value a = 0 ∧ execJf a v s = .next (s.setPc (s.value v))) := by
  by_cases h : s.value a = 0
  · exact .inr ⟨h, by rw [execJf, nonzero_eq_false.mpr h]; rfl⟩
  · exact .inl ⟨h, by rw [execJf, nonzero_eq_true.mpr h]; rfl⟩

/-- The step of an engine that is not in a terminal status is its active step (R78). -/
theorem step_of_active {s : State} (h : s.status = .running ∨ s.status = .awaitingInput) :
    step s = activeStep s := by
  rcases h with h | h <;> simp [step, engineStep, h]

/-- A step in Halted or Fatal (R207). -/
theorem step_of_terminal {s : State} (h : s.status = .halted ∨ s.status = .fatal) : step s = .next s := by
  rcases h with h | h <;> simp [step, engineStep, h]

end Sys2Proof.Machine
end

