-- ==== Sys2Proof/Laws/Memory.lean ====
section
/-! SUPPORT. The laws of memory: a read after a write, a write leaves every other place alone, and every
operation keeps the canonical form. -/

namespace Sys2Proof

/-! ### bytes and words -/

@[simp] theorem wordOfBytes_lowByte_highByte (w : Word) : wordOfBytes (lowByte w) (highByte w) = w := by
  apply BitVec.eq_of_toNat_eq
  have := w.isLt
  simp only [wordOfBytes, lowByte, highByte, BitVec.toNat_ofNat]
  omega

theorem wordOfBytes_toNat (lo hi : Byte) : (wordOfBytes lo hi).toNat = lo.toNat + 256 * hi.toNat := by
  have := lo.isLt
  have := hi.isLt
  simp only [wordOfBytes, BitVec.toNat_ofNat]
  omega

theorem wordsOfBytes_bytesOfWords (ws : List Word) : wordsOfBytes (bytesOfWords ws) = ws := by
  induction ws with
  | nil => rfl
  | cons w ws ih => simp [bytesOfWords, wordsOfBytes, ih]

end Sys2Proof

namespace Sys2Proof.Machine

/-! ### one byte -/

@[simp] theorem Memory.readByte_nil (a : Nat) : Memory.readByte [] a = Memory.unlisted := rfl

/-- Canonical memory from `lo` on lists nothing below `lo`. -/
theorem Memory.readByte_of_lt {m : Memory} {lo a : Nat} (h : Memory.wfFrom lo m = true) (ha : a < lo) :
    m.readByte a = Memory.unlisted := by
  induction m generalizing lo with
  | nil => rfl
  | cons e m ih =>
    obtain ⟨k, b⟩ := e
    simp only [Memory.wfFrom, Bool.and_eq_true, decide_eq_true_eq] at h
    have hk : k ≠ a := by omega
    simp only [Memory.readByte, if_neg hk]
    exact ih h.2 (by omega)

theorem Memory.wfFrom_mono {m : Memory} {lo lo' : Nat} (h : Memory.wfFrom lo m = true) (hl : lo' ≤ lo) :
    Memory.wfFrom lo' m = true := by
  cases m with
  | nil => rfl
  | cons e m =>
    obtain ⟨k, b⟩ := e
    simp only [Memory.wfFrom, Bool.and_eq_true, decide_eq_true_eq] at h ⊢
    exact ⟨⟨⟨by omega, h.1.1.2⟩, h.1.2⟩, h.2⟩

/-- A write leaves every other byte alone, in canonical form or not. -/
theorem Memory.readByte_writeByte_of_ne (m : Memory) {a c : Nat} (v : Byte) (h : c ≠ a) :
    (m.writeByte a v).readByte c = m.readByte c := by
  induction m with
  | nil => by_cases hv : v = Memory.unlisted <;> simp [Memory.writeByte, Memory.readByte, hv, h.symm]
  | cons e m ih =>
    obtain ⟨k, b⟩ := e
    simp only [Memory.writeByte]
    split
    · split <;> simp [Memory.readByte, h.symm]
    · split
      · next hk => subst hk; split <;> simp [Memory.readByte, h.symm]
      · simp [Memory.readByte, ih]

/-- A read after a write to the same byte gives the value written. -/
theorem Memory.readByte_writeByte_self {m : Memory} {lo : Nat} (hm : Memory.wfFrom lo m = true) (a : Nat)
    (v : Byte) : (m.writeByte a v).readByte a = v := by
  induction m generalizing lo with
  | nil => by_cases hv : v = Memory.unlisted <;> simp [Memory.writeByte, Memory.readByte, hv]
  | cons e m ih =>
    obtain ⟨k, b⟩ := e
    have hm' := hm
    simp only [Memory.wfFrom, Bool.and_eq_true, decide_eq_true_eq] at hm'
    simp only [Memory.writeByte]
    split
    · next hlt =>
      split
      · next hv =>
        have hk : k ≠ a := by omega
        simp only [Memory.readByte, if_neg hk, hv]
        exact Memory.readByte_of_lt hm'.2 (by omega)
      · simp [Memory.readByte]
    · split
      · next hk =>
        subst hk
        split
        · next hv => rw [hv]; exact Memory.readByte_of_lt hm'.2 (by omega)
        · simp [Memory.readByte]
      · next hk =>
        have : k ≠ a := fun h => hk h.symm
        simp only [Memory.readByte, if_neg this]
        exact ih hm'.2

theorem Memory.wfFrom_writeByte {m : Memory} {lo a : Nat} (hm : Memory.wfFrom lo m = true) (hlo : lo ≤ a)
    (ha : a < 65536) (v : Byte) : Memory.wfFrom lo (m.writeByte a v) = true := by
  induction m generalizing lo with
  | nil =>
    by_cases hv : v = Memory.unlisted
    · simp [Memory.writeByte, hv, Memory.wfFrom]
    · simp [Memory.writeByte, hv, Memory.wfFrom, hlo, ha]
  | cons e m ih =>
    obtain ⟨k, b⟩ := e
    have hm' := hm
    simp only [Memory.wfFrom, Bool.and_eq_true, decide_eq_true_eq] at hm'
    simp only [Memory.writeByte]
    split
    · split
      · exact hm
      · next hlt hv =>
        simp only [Memory.wfFrom, Bool.and_eq_true, decide_eq_true_eq]
        exact ⟨⟨⟨hlo, ha⟩, hv⟩, ⟨⟨by omega, hm'.1.1.2⟩, hm'.1.2⟩, hm'.2⟩
    · split
      · next hk =>
        subst hk
        split
        · exact Memory.wfFrom_mono hm'.2 (by omega)
        · next hv =>
          simp only [Memory.wfFrom, Bool.and_eq_true, decide_eq_true_eq]
          exact ⟨⟨⟨hlo, ha⟩, hv⟩, hm'.2⟩
      · next hlt hk =>
        simp only [Memory.wfFrom, Bool.and_eq_true, decide_eq_true_eq]
        exact ⟨hm'.1, ih hm'.2 (by omega)⟩

/-- Writing a byte keeps the canonical form. -/
theorem Memory.wf_writeByte {m : Memory} {a : Nat} (hm : m.wf = true) (ha : a < 65536) (v : Byte) :
    (m.writeByte a v).wf = true := Memory.wfFrom_writeByte hm (Nat.zero_le a) ha v

/-! ### one cell -/

/-- Writing a cell keeps the canonical form (R53). -/
theorem Memory.wf_writeCell {m : Memory} {a : Nat} (hm : m.wf = true) (ha : a ≤ 32767) (v : Word) :
    (m.writeCell a v).wf = true :=
  Memory.wf_writeByte (Memory.wf_writeByte hm (by omega) _) (by omega) _

/-- A write of a cell leaves every byte outside the cell alone (R53). -/
theorem Memory.readByte_writeCell_of_ne (m : Memory) {a c : Nat} (v : Word) (h0 : c ≠ 2 * a)
    (h1 : c ≠ 2 * a + 1) : (m.writeCell a v).readByte c = m.readByte c := by
  rw [Memory.writeCell, Memory.readByte_writeByte_of_ne _ _ h1, Memory.readByte_writeByte_of_ne _ _ h0]

/-- A write of a cell leaves every other cell alone (R53). -/
theorem Memory.readCell_writeCell_of_ne (m : Memory) {a c : Nat} (v : Word) (h : c ≠ a) :
    (m.writeCell a v).readCell c = m.readCell c := by
  simp only [Memory.readCell]
  rw [Memory.readByte_writeCell_of_ne _ _ (by omega) (by omega),
    Memory.readByte_writeCell_of_ne _ _ (by omega) (by omega)]

/-- A read after a write to the same cell gives the word written (R52, R53). -/
theorem Memory.readCell_writeCell_self {m : Memory} {a : Nat} (hm : m.wf = true) (ha : a ≤ 32767)
    (v : Word) : (m.writeCell a v).readCell a = v := by
  have hw : Memory.wfFrom 0 (m.writeByte (2 * a) (lowByte v)) = true :=
    Memory.wf_writeByte hm (by omega) _
  have h1 : (m.writeCell a v).readByte (2 * a + 1) = highByte v :=
    Memory.readByte_writeByte_self hw _ _
  have h0 : (m.writeCell a v).readByte (2 * a) = lowByte v := by
    rw [Memory.writeCell, Memory.readByte_writeByte_of_ne _ _ (by omega)]
    exact Memory.readByte_writeByte_self hm _ _
  simp [Memory.readCell, h0, h1]

theorem Memory.readCell_writeCell {m : Memory} {a : Nat} (hm : m.wf = true) (ha : a ≤ 32767) (v : Word)
    (c : Nat) : (m.writeCell a v).readCell c = if c = a then v else m.readCell c := by
  by_cases h : c = a
  · subst h; simp [Memory.readCell_writeCell_self hm ha]
  · simp [h, Memory.readCell_writeCell_of_ne m v h]

/-! ### images and stored words -/

theorem Memory.wfFrom_ofBytes (k : Nat) (bs : List Byte) (h : k + bs.length ≤ 65536) :
    Memory.wfFrom k (Memory.ofBytes k bs) = true := by
  induction bs generalizing k with
  | nil => rfl
  | cons b bs ih =>
    simp only [List.length_cons] at h
    have := ih (k + 1) (by omega)
    simp only [Memory.ofBytes]
    split
    · exact Memory.wfFrom_mono this (by omega)
    · next hb =>
      simp only [Memory.wfFrom, Bool.and_eq_true, decide_eq_true_eq]
      exact ⟨⟨⟨Nat.le_refl k, by omega⟩, hb⟩, this⟩

/-- A loaded image is canonical memory (R246). -/
theorem Memory.wf_ofBytes {bs : List Byte} (h : bs.length ≤ 65536) : (Memory.ofBytes 0 bs).wf = true :=
  Memory.wfFrom_ofBytes 0 bs (by omega)

theorem Memory.readByte_ofBytes_of_lt (k : Nat) (bs : List Byte) {a : Nat} (h : a < k) :
    (Memory.ofBytes k bs).readByte a = Memory.unlisted := by
  induction bs generalizing k with
  | nil => rfl
  | cons b bs ih =>
    simp only [Memory.ofBytes]
    split
    · exact ih (k + 1) (by omega)
    · have : k ≠ a := by omega
      simp only [Memory.readByte, if_neg this]
      exact ih (k + 1) (by omega)

/-- Byte `j` of a loaded image reads as that byte of the image, and past its end as 0 (R246). -/
theorem Memory.readByte_ofBytes (k j : Nat) (bs : List Byte) :
    (Memory.ofBytes k bs).readByte (k + j) = (bs[j]?).getD Memory.unlisted := by
  induction bs generalizing k j with
  | nil => rfl
  | cons b bs ih =>
    cases j with
    | zero =>
      simp only [Memory.ofBytes]
      split
      · next hb => rw [Memory.readByte_ofBytes_of_lt _ _ (by omega)]; simp [hb]
      · simp [Memory.readByte]
    | succ j =>
      have h := ih (k + 1) j
      rw [show k + 1 + j = k + (j + 1) by omega] at h
      simp only [Memory.ofBytes]
      split
      · simpa using h
      · have : k ≠ k + (j + 1) := by omega
        simp only [Memory.readByte, if_neg this]
        simpa using h

/-- Storing words keeps the canonical form. -/
theorem Memory.wf_storeWords {m : Memory} (hm : m.wf = true) (a : Nat) (ws : List Word) :
    (m.storeWords a ws).wf = true := by
  induction ws generalizing m a with
  | nil => exact hm
  | cons w ws ih =>
    simp only [Memory.storeWords]
    split
    · next ha => exact ih (Memory.wf_writeCell hm ha w) (a + 1)
    · exact hm

/-- Storing words leaves every cell before them alone. -/
theorem Memory.readCell_storeWords_of_lt (m : Memory) {a c : Nat} (ws : List Word) (h : c < a) :
    (m.storeWords a ws).readCell c = m.readCell c := by
  induction ws generalizing m a with
  | nil => rfl
  | cons w ws ih =>
    simp only [Memory.storeWords]
    split
    · rw [ih _ (by omega), Memory.readCell_writeCell_of_ne _ _ (by omega)]
    · rfl

/-- Storing words stores each of them, as far as memory goes. -/
theorem Memory.readCell_storeWords {m : Memory} (hm : m.wf = true) (a j : Nat) (ws : List Word)
    (hj : j < ws.length) (ha : a + j ≤ 32767) : (m.storeWords a ws).readCell (a + j) = ws[j] := by
  induction ws generalizing m a j with
  | nil => simp at hj
  | cons w ws ih =>
    have h0 : a ≤ 32767 := by omega
    simp only [Memory.storeWords, if_pos h0]
    cases j with
    | zero =>
      rw [Memory.readCell_storeWords_of_lt _ _ (by omega), Nat.add_zero,
        Memory.readCell_writeCell_self hm h0]
      rfl
    | succ j =>
      have := ih (Memory.wf_writeCell hm h0 w) (a + 1) j (by simpa using hj) (by omega)
      rw [show a + (j + 1) = a + 1 + j by omega, this]
      rfl

end Sys2Proof.Machine
end

