-- ==== Sys2Proof/Laws/Run.lean ====
section
/-! SUPPORT. Runs, and what the statuses and the reset say of a state. -/

namespace Sys2Proof.Machine

@[simp] theorem run_zero (s : State) : Sys2Proof.core.run 0 s = .next s := rfl

/-- A run takes one step at a time. -/
theorem run_succ_of_step {s t : State} (h : step s = .next t) (n : Nat) :
    Sys2Proof.core.run (n + 1) s = Sys2Proof.core.run n t := by
  have h' : Sys2Proof.core.step s = .next t := h
  simp only [Host.Core.run, h']

/-- Active is Running or AwaitingInput. -/
theorem State.active_iff {s : State} :
    s.active = true ↔ s.status = .running ∨ s.status = .awaitingInput := by
  unfold State.active
  cases s.status <;> simp

/-- Not active is Halted or Fatal. -/
theorem State.active_eq_false {s : State} :
    s.active = false ↔ s.status = .halted ∨ s.status = .fatal := by
  unfold State.active
  cases s.status <;> simp

/-- Everything an active step can do: run what was fetched, or raise why nothing was. -/
theorem step_cases {s t : State} (ha : s.active = true) (h : step s = .next t) :
    (∃ i rest, s.fetch = .instr i rest ∧ exec i s.resume = .next t) ∨
    (∃ e, s.fetch = .rejected e ∧ t = s.resume.raiseDecode e) := by
  rw [step_of_active (State.active_iff.mp ha)] at h
  unfold activeStep at h
  split at h
  · next i r hf => exact .inl ⟨i, r, hf, h⟩
  · next e hf => cases h; exact .inr ⟨e, hf, rfl⟩

/-- A rejected fetch raises some cause and nothing else. -/
theorem State.raiseDecode_eq_raise (s : State) (e : DecodeError) :
    ∃ c w, s.raiseDecode e = s.raise c w ∧ c ≠ .none := by
  cases e <;> exact ⟨_, _, rfl, by decide⟩

/-- Everything a reset that completes did (R241, R247). -/
theorem State.boot_eq_some {p : Config.Params} {image : List Byte} {input : List Word} {closed : Bool}
    {s : State} (h : State.boot p image input closed = some s) :
    (image.length % 2 = 0 ∧ image.length ≤ 65536 ∧ (closed = true → input = [])) ∧
    s = { State.reset with
      mem := Memory.ofBytes 0 image
      input := input
      inputClosed := closed
      params := p } := by
  unfold State.boot at h
  split at h
  · next hc => cases h; exact ⟨hc, rfl⟩
  · cases h

end Sys2Proof.Machine
end

