-- ==== Sys2Proof/Tests/Slice0.lean ====
section
/-! SUPPORT. Tests. Expected results come from 95_test_vectors.md (the section is named) or are worked out
by hand from the rule named. Last, for every obligation with hypotheses a witness that they can be
met together. -/

namespace Sys2Proof.Tests

open Sys2Proof.Machine

/-! ## Well-formedness: a literal above 32767 is refused in every operand place (R90) -/

theorem test_wf_set : (Instr.set 0 (.lit 32768)).wellFormed = false := by decide
theorem test_wf_push : (Instr.push (.lit 65535)).wellFormed = false := by decide
theorem test_wf_eq_left : (Instr.eq 0 (.lit 32768) (.lit 0)).wellFormed = false := by decide
theorem test_wf_eq_right : (Instr.eq 0 (.lit 0) (.lit 32768)).wellFormed = false := by decide
theorem test_wf_gt_left : (Instr.gt 0 (.lit 32768) (.lit 0)).wellFormed = false := by decide
theorem test_wf_gt_right : (Instr.gt 0 (.lit 0) (.lit 32768)).wellFormed = false := by decide
theorem test_wf_jmp : (Instr.jmp (.lit 32768)).wellFormed = false := by decide
theorem test_wf_jt_left : (Instr.jt (.lit 32768) (.lit 0)).wellFormed = false := by decide
theorem test_wf_jt_right : (Instr.jt (.lit 0) (.lit 32768)).wellFormed = false := by decide
theorem test_wf_jf_left : (Instr.jf (.lit 32768) (.lit 0)).wellFormed = false := by decide
theorem test_wf_jf_right : (Instr.jf (.lit 0) (.lit 32768)).wellFormed = false := by decide
theorem test_wf_add_left : (Instr.add 0 (.lit 32768) (.lit 0)).wellFormed = false := by decide
theorem test_wf_add_right : (Instr.add 0 (.lit 0) (.lit 32768)).wellFormed = false := by decide
theorem test_wf_mult_left : (Instr.mult 0 (.lit 32768) (.lit 0)).wellFormed = false := by decide
theorem test_wf_mult_right : (Instr.mult 0 (.lit 0) (.lit 32768)).wellFormed = false := by decide
theorem test_wf_mod_left : (Instr.mod 0 (.lit 32768) (.lit 0)).wellFormed = false := by decide
theorem test_wf_mod_right : (Instr.mod 0 (.lit 0) (.lit 32768)).wellFormed = false := by decide
theorem test_wf_and_left : (Instr.and 0 (.lit 32768) (.lit 0)).wellFormed = false := by decide
theorem test_wf_and_right : (Instr.and 0 (.lit 0) (.lit 32768)).wellFormed = false := by decide
theorem test_wf_or_left : (Instr.or 0 (.lit 32768) (.lit 0)).wellFormed = false := by decide
theorem test_wf_or_right : (Instr.or 0 (.lit 0) (.lit 32768)).wellFormed = false := by decide
theorem test_wf_not : (Instr.not 0 (.lit 32768)).wellFormed = false := by decide
theorem test_wf_rmem : (Instr.rmem 0 (.lit 32768)).wellFormed = false := by decide
theorem test_wf_wmem_left : (Instr.wmem (.lit 32768) (.lit 0)).wellFormed = false := by decide
theorem test_wf_wmem_right : (Instr.wmem (.lit 0) (.lit 32768)).wellFormed = false := by decide
theorem test_wf_call : (Instr.call (.lit 32768)).wellFormed = false := by decide
theorem test_wf_out : (Instr.out (.lit 32768)).wellFormed = false := by decide
theorem test_wf_top_literal : (Instr.wmem (.lit 32767) (.reg 7)).wellFormed = true := by decide

/-! ## Decoding: words written bit by bit from R73, R75, R76 and R80 -/

theorem test_decode_halt : decode [0b0000000000000000] = .instr .halt [] := by decide

theorem test_decode_set :
    decode [0b0000000000000001, 0b1000000000000011, 0b0111111111111111] =
      .instr (.set 3 (.lit 32767)) [] := by decide

theorem test_decode_push :
    decode [0b0000000000000010, 0b1000000000000101] = .instr (.push (.reg 5)) [] := by decide

theorem test_decode_pop :
    decode [0b0000000000000011, 0b1000000000000111] = .instr (.pop 7) [] := by decide

theorem test_decode_eq :
    decode [0b0000000000000100, 0b1000000000000001, 0b1000000000000010, 0b0000000000001010] =
      .instr (.eq 1 (.reg 2) (.lit 10)) [] := by decide

theorem test_decode_gt :
    decode [0b0000000000000101, 0b1000000000000000, 0b0000000000000111, 0b1000000000000100] =
      .instr (.gt 0 (.lit 7) (.reg 4)) [] := by decide

theorem test_decode_jmp :
    decode [0b0000000000000110, 0b0000000001100100] = .instr (.jmp (.lit 100)) [] := by decide

theorem test_decode_jt :
    decode [0b0000000000000111, 0b1000000000000001, 0b0000000000000110] =
      .instr (.jt (.reg 1) (.lit 6)) [] := by decide

theorem test_decode_jf :
    decode [0b0000000000001000, 0b0000000000000001, 0b1000000000000110] =
      .instr (.jf (.lit 1) (.reg 6)) [] := by decide

theorem test_decode_add :
    decode [0b0000000000001001, 0b1000000000000000, 0b1000000000000011, 0b0000000000000001] =
      .instr (.add 0 (.reg 3) (.lit 1)) [] := by decide

theorem test_decode_mult :
    decode [0b0000000000001010, 0b1000000000000010, 0b0000000000000011, 0b1000000000000001] =
      .instr (.mult 2 (.lit 3) (.reg 1)) [] := by decide

theorem test_decode_mod :
    decode [0b0000000000001011, 0b1000000000000000, 0b0000000000000111, 0b0000000000000011] =
      .instr (.mod 0 (.lit 7) (.lit 3)) [] := by decide

theorem test_decode_and :
    decode [0b0000000000001100, 0b1000000000000100, 0b1000000000000101, 0b1000000000000110] =
      .instr (.and 4 (.reg 5) (.reg 6)) [] := by decide

theorem test_decode_or :
    decode [0b0000000000001101, 0b1000000000000110, 0b0000000000001100, 0b0000000000001010] =
      .instr (.or 6 (.lit 12) (.lit 10)) [] := by decide

theorem test_decode_not :
    decode [0b0000000000001110, 0b1000000000000000, 0b1000000000000001] =
      .instr (.not 0 (.reg 1)) [] := by decide

theorem test_decode_rmem :
    decode [0b0000000000001111, 0b1000000000000000, 0b0000000000001100] =
      .instr (.rmem 0 (.lit 12)) [] := by decide

theorem test_decode_wmem :
    decode [0b0000000000010000, 0b0000000000001101, 0b1000000000000000] =
      .instr (.wmem (.lit 13) (.reg 0)) [] := by decide

theorem test_decode_call :
    decode [0b0000000000010001, 0b0000000000000101] = .instr (.call (.lit 5)) [] := by decide

theorem test_decode_ret : decode [0b0000000000010010] = .instr .ret [] := by decide

theorem test_decode_out :
    decode [0b0000000000010011, 0b0000000001000001] = .instr (.out (.lit 65)) [] := by decide

theorem test_decode_in :
    decode [0b0000000000010100, 0b1000000000000011] = .instr (.inp 3) [] := by decide

theorem test_decode_noop : decode [0b0000000000010101, 9] = .instr .noop [9] := by decide

/-- 95 section 1.1: the first two words of Scenario A, from its image bytes. -/
theorem test_decode_bytes :
    decodeBytes [0x13, 0x00, 0x41, 0x00, 0x13, 0x00, 0x0A, 0x00] =
      .instr (.out (.lit 65)) [19, 10] := by decide

/-- R82, R74. -/
theorem test_reject_opcode :
    decode [22] = .rejected (.badOpcode 22) ∧ decode [32768] = .rejected (.badOpcode 32768) ∧
      decode [65535, 1, 1, 1] = .rejected (.badOpcode 65535) := by decide

/-- R83. -/
theorem test_reject_operand : decode [2, 32776] = .rejected (.badOperand 32776) := by decide

/-- R83 and D8: the bad destination is reported before the bad value operand after it (95 section 2.3). -/
theorem test_reject_destination :
    decode [4, 0, 40000, 1] = .rejected (.badDest 0) ∧
      decode [1, 32776, 0] = .rejected (.badDest 32776) := by decide

/-- R77. -/
theorem test_reject_truncated :
    decode [1, 32768] = .rejected (.truncated 2) ∧ decode [] = .rejected (.truncated 0) := by decide

/-- R89 by hand: the registers' operand words. -/
theorem test_encode_gt :
    encode (.gt 7 (.lit 32767) (.reg 1)) = [5, 32775, 32767, 32769] := by decide

/-- Bits 15..0 opcode, 31..16 destination, 47..32 value. -/
theorem test_table_word_set :
    decodeTableWord 48 (1 + 32768 * 2 ^ 16 + 4 * 2 ^ 32) = some (.set 0 (.lit 4)) := by decide

/-- The operand word has no bits of its own and is 0: literal 0 for a value, BAD_DEST for a destination. -/
theorem test_table_word_short :
    decodeTableWord 16 6 = some (.jmp (.lit 0)) ∧ decodeTableWord 16 3 = none := by decide

/-! ## Steps -/

/-- The reset state with words from address 0 on. -/
def load (ws : List Word) : State := State.reset.setMem (Memory.storeWords [] 0 ws)

/-- The reset state with words from address `a` on and the pc there. -/
def loadAt (a : Nat) (ws : List Word) : State :=
  { State.reset with mem := Memory.storeWords [] a ws, pc := BitVec.ofNat 16 a }

/-- The answer is a next state. -/
def answers : Result → Bool
  | .next _ => true
  | .fault _ => false
  | .refused _ => false

/-- The state of an answer, or else `s`. -/
def stateOr (s : State) : Result → State
  | .next t => t
  | .fault _ => s
  | .refused _ => s

/-- The state after a step. -/
def after (s : State) : State := stateOr s (step s)

theorem next_stateOr {r : Result} (s : State) (h : answers r = true) : r = .next (stateOr s r) := by
  cases r with
  | next t => rfl
  | fault f => cases h
  | refused f => cases h

theorem step_after {s : State} (h : answers (step s) = true) : step s = .next (after s) :=
  next_stateOr s h

/-- Status Fatal with this record, the pc at the opcode word. -/
def trapped (t : State) (c : Cause) (pc w : Word) : Bool :=
  decide (t.status = .fatal) && decide (t.fault = { cause := c, pc := pc, word := w }) &&
    decide (t.pc = pc)

/-- 95 section 2.1. -/
theorem test_halt :
    (after (load [0])).status = .halted ∧ (after (load [0])).pc = 1 ∧
      (after (loadAt 32767 [0])).pc = 32768 := by decide

theorem test_noop :
    (after (load [21])).pc = 1 ∧ trapped (after (after (loadAt 32767 [21]))) .fetchAddr 32768 32768 := by
  decide

/-- 95 section 2.2. -/
theorem test_set :
    after (load [1, 32768, 4]) = ((load [1, 32768, 4]).setReg 0 4).setPc 3 := by decide

theorem test_set_literal_destination : trapped (after (load [1, 5, 7])) .badDest 0 5 := by decide

theorem test_push :
    (after ((load [2, 32769]).setReg 1 40000)).stack = [40000] := by decide

theorem test_push_full :
    trapped (after { (load [2, 2]).setStack [1] with
      params := { stackDepth := some 1, debugPort := false } }) .stackFull 0 2 := by decide

theorem test_pop :
    (after ((load [3, 32769]).setStack [2, 1])).stack = [1] ∧
      (after ((load [3, 32769]).setStack [2, 1])).reg 1 = 2 := by decide

theorem test_pop_empty :
    trapped (after (load [3, 32768])) .stackEmpty 0 3 ∧ trapped (after (load [3, 5])) .badDest 0 5 := by
  decide

/-- 95 section 2.3. -/
theorem test_eq :
    (after (load [4, 32768, 5, 5])).reg 0 = 1 ∧ (after (load [4, 32768, 5, 6])).reg 0 = 0 ∧
      (after ((load [4, 32768, 32769, 0]).setReg 1 32768)).reg 0 = 0 := by decide

theorem test_gt :
    (after (load [5, 32768, 7, 3])).reg 0 = 1 ∧ (after (load [5, 32768, 3, 3])).reg 0 = 0 ∧
      (after ((load [5, 32768, 32769, 32767]).setReg 1 65535)).reg 0 = 1 := by decide

/-- 95 section 2.4. -/
theorem test_jmp :
    (after ((load [6, 32771]).setReg 3 200)).pc = 200 ∧
      (after ((load [6, 32769]).setReg 1 32769)).pc = 32769 := by decide

theorem test_jt :
    (after (load [7, 1, 50])).pc = 50 ∧ (after (load [7, 0, 50])).pc = 3 ∧
      (after ((load [7, 32768, 50]).setReg 0 32768)).pc = 50 := by decide

theorem test_jt_not_taken_bad_target :
    trapped (after (load [7, 0, 40000])) .badOperand 0 40000 := by decide

theorem test_jf :
    (after (load [8, 0, 50])).pc = 50 ∧ (after (load [8, 1, 50])).pc = 3 ∧
      (after ((load [8, 32768, 50]).setReg 0 32768)).pc = 3 := by decide

/-- 95 section 2.5. -/
theorem test_add :
    (after (load [9, 32768, 32758, 15])).reg 0 = 5 ∧
      (after ((load [9, 32768, 32768, 32768]).setReg 0 40000)).reg 0 = 14464 := by decide

theorem test_mult :
    (after (load [10, 32768, 1234, 5678])).reg 0 = 27068 ∧
      (after (load [10, 32768, 32767, 32767])).reg 0 = 1 := by decide

theorem test_mod :
    (after (load [11, 32768, 7, 3])).reg 0 = 1 ∧
      (after (((load [11, 32768, 32769, 32770]).setReg 1 40000).setReg 2 50000)).reg 0 = 40000 := by
  decide

theorem test_mod_by_zero :
    trapped (after ((load [11, 32768, 32769, 32770]).setReg 1 7)) .divZero 0 32770 ∧
      trapped (after (load [11, 32768, 7, 0])) .divZero 0 0 := by decide

theorem test_and :
    (after (load [12, 32768, 12, 10])).reg 0 = 8 ∧
      (after ((load [12, 32768, 32769, 32769]).setReg 1 65535)).reg 0 = 32767 := by decide

theorem test_or :
    (after (load [13, 32768, 21845, 10922])).reg 0 = 32767 ∧
      (after ((load [13, 32768, 32769, 0]).setReg 1 32768)).reg 0 = 0 := by decide

theorem test_not :
    (after (load [14, 32768, 21845])).reg 0 = 10922 ∧
      (after ((load [14, 32768, 32769]).setReg 1 40000)).reg 0 = 25535 := by decide

/-- 95 section 3, P4, and section 2.6. -/
theorem test_rmem :
    (after (load [15, 32768, 4, 0, 72])).reg 0 = 72 ∧
      trapped (after ((load [15, 32768, 32769]).setReg 1 32768)) .memAddr 0 32768 := by decide

theorem test_wmem :
    after ((load [16, 13, 32768]).setReg 0 72) =
      (((load [16, 13, 32768]).setReg 0 72).setMem ((load [16, 13, 32768]).mem ++ [(26, 72)])).setPc 3 := by
  decide

/-- 95 section 3, P5. -/
theorem test_self_modifying :
    (after (after (load [16, 3, 0, 19, 65, 0]))).status = .halted ∧
      (after (after (load [16, 3, 0, 19, 65, 0]))).output = [] := by decide

/-- 95 section 2.7. -/
theorem test_call :
    (after (loadAt 32766 [17, 100])).stack = [32768] ∧ (after (loadAt 32766 [17, 100])).pc = 100 := by
  decide

theorem test_call_register :
    (after ((load [17, 32768]).setReg 0 9)).pc = 9 ∧
      trapped (after { load [17, 100] with params := { stackDepth := some 0, debugPort := false } })
        .stackFull 0 17 := by decide

theorem test_ret :
    (after ((load [18]).setStack [40000, 5])).pc = 40000 ∧
      (after ((load [18]).setStack [40000, 5])).stack = [5] := by decide

theorem test_ret_empty :
    (after (load [18])).status = .halted ∧ (after (load [18])).pc = 1 ∧
      (after (load [18])).fault.cause = .none := by decide

/-- 95 section 2.8. -/
theorem test_out :
    (after ((load [19, 32768]).setReg 0 321)).output = [65] ∧
      (after (load [19, 32767])).output = [255] := by decide

theorem test_in :
    (after ((load [20, 32768]).setInput [102, 111])).reg 0 = 102 ∧
      (after ((load [20, 32768]).setInput [102, 111])).input = [111] ∧
      trapped (after ((load [20, 5]).setInput [102])) .badDest 0 5 := by decide

theorem test_in_without_input :
    after (load [20, 32768]) = (load [20, 32768]).setStatus .awaitingInput ∧
      trapped (after { load [20, 32768] with inputClosed := true }) .inputClosed 0 20 := by decide

/-- 95 section 2.9: an instruction cut off by the top of memory. -/
theorem test_cut_off :
    trapped (after (loadAt 32766 [1, 32768])) .fetchAddr 32766 32768 := by decide

/-- The host's placing of an instruction: `set r0 4` runs as the first instruction after reset. -/
theorem test_with_fetch_word :
    (after (State.reset.withFetchWord 48 (1 + 32768 * 2 ^ 16 + 4 * 2 ^ 32))).reg 0 = 4 := by decide

/-! ## Reset, memory, environment -/

/-- 95 section 2.10. -/
theorem test_boot :
    (State.boot Config.Params.suggested [0xFF, 0x7F, 0x00, 0x80] [] false).map
        (fun s => (s.mem.readCell 0, s.mem.readCell 1, s.mem.readCell 2)) =
      some (32767, 32768, 0) := by decide

theorem test_boot_odd : State.boot Config.Params.suggested [0x13, 0x00, 0x41] [] false = none := by
  decide

/-- Writing what an unlisted byte reads as removes the entry, so equal memories are equal lists. -/
theorem test_memory_canonical :
    Memory.writeCell (Memory.writeCell [] 3 65535) 3 0 = [] ∧
      Memory.writeCell (Memory.writeCell [] 32767 0xABCD) 0 0x0100 =
        [(1, 0x01), (65534, 0xCD), (65535, 0xAB)] := by decide

/-- Out of range keys and zero bytes are not canonical. -/
theorem test_memory_not_canonical :
    Memory.wf [(65536, 1)] = false ∧ Memory.wf [(4, 0)] = false ∧ Memory.wf [(5, 1), (4, 1)] = false := by
  decide

/-- The machine with a debug port. -/
def withPort (s : State) : State := { s with params := { stackDepth := none, debugPort := true } }

/-- 95 section 2.11. -/
theorem test_debug_write_register :
    debugAccess (.writeReg 3 1234) (withPort (load [0])) =
        some (.done, (withPort (load [0])).setReg 3 1234) ∧
      debugAccess (.writeReg 8 0) (withPort (load [0])) = some (.refused, withPort (load [0])) := by decide

theorem test_debug_write_cell :
    debugAccess (.writeCell 32768 0) (withPort (load [0])) = some (.refused, withPort (load [0])) ∧
      (envMove (.debug (.writeCell 0 21)) ((withPort (load [20, 32768])).setStatus .awaitingInput)).map
        (fun s => (after s).pc) = some 1 := by decide

/-- R221: the words of two instructions from the pc on. -/
theorem test_debug_read_code :
    debugAccess (.readCode 2) (withPort (load [19, 65, 0, 9])) =
      some (.code 0 [19, 65, 0], withPort (load [19, 65, 0, 9])) := by decide

theorem test_debug_terminal :
    debugAccess .readRegs ((withPort (load [0])).setStatus .halted) = none ∧
      debugAccess .readRegs (load [0]) = none := by decide

/-! ## Witnesses: for every obligation with hypotheses, a state and operands that meet them, and for a
statement of several clauses one for each, at the ends of its range -/

open Sys2Proof.Claims

theorem witness_DecodeOfEncodeIsTheInstruction :
    (Instr.gt 7 (.lit 32767) (.reg 0)).wellFormed = true := by decide

theorem witness_DecoderAcceptsOnlyEncodings :
    decode [16, 32767, 32775, 22] = .instr (.wmem (.lit 32767) (.reg 7)) [22] := by decide

theorem witness_LengthIsGivenByTheOpcodeAlone :
    decode (13 :: [32775, 0, 32767, 5]) = .instr (.or 7 (.lit 0) (.lit 32767)) [5] := by decide

theorem witness_ValueOperandWordsMeanLiteralsOrRegisters :
    (0 : Word).toNat ≤ 32767 ∧ (32767 : Word).toNat ≤ 32767 ∧
      (32768 : Word).toNat = 32768 + (0 : Reg).val ∧ (32775 : Word).toNat = 32768 + (7 : Reg).val ∧
      32776 ≤ (32776 : Word).toNat ∧ 32776 ≤ (65535 : Word).toNat := by decide

theorem witness_DestinationWordsMustNameARegister :
    (32768 : Word).toNat = 32768 + (0 : Reg).val ∧ (32775 : Word).toNat = 32768 + (7 : Reg).val ∧
      ((32767 : Word).toNat ≤ 32767 ∨ 32776 ≤ (32767 : Word).toNat) ∧
      ((32776 : Word).toNat ≤ 32767 ∨ 32776 ≤ (32776 : Word).toNat) := by decide

theorem witness_LiteralsAreFifteenBits :
    (32767 : Word).getLsbD 15 = false ∧ Operand.ofWord? 32775 = some (.reg 7) ∧
      32767 < (((load [0]).setReg 7 32768).value (.reg 7)).toNat := by decide

theorem witness_StepRunsTheDecodedInstruction :
    (load [4, 32768, 5, 32769]).active = true ∧ (Instr.eq 0 (.lit 5) (.reg 1)).wellFormed = true ∧
      (load [4, 32768, 5, 32769]).mem.holds (load [4, 32768, 5, 32769]).pc.toNat
        (encode (.eq 0 (.lit 5) (.reg 1))) := by
  refine ⟨by decide, by decide, ?_⟩
  simp only [encode, Instr.operandWords, Memory.holds]
  decide

theorem witness_InvalidOpcodeWordsAreFatal :
    (loadAt 32767 [22]).active = true ∧ (loadAt 32767 [22]).pc.toNat ≤ 32767 ∧
      (loadAt 32767 [22]).mem.readCell (loadAt 32767 [22]).pc.toNat = 22 ∧ 21 < (22 : Word).toNat := by
  decide

theorem witness_FetchAboveTheTopIsFatal :
    (loadAt 32768 []).active = true ∧ 32767 < (loadAt 32768 []).pc.toNat := by decide

theorem witness_ThePcDoesNotWrap :
    (loadAt 32766 [2, 7]).fetch = .instr (.push (.lit 7)) [] := by decide

theorem witness_ModGivesTheRemainder :
    (load [0]).value (.lit 1) ≠ 0 ∧ ((load [0]).setReg 3 65535).value (.reg 3) ≠ 0 := by decide

theorem witness_RmemReadsTheAddressedCell :
    ((load [0]).value (.lit 0)).toNat ≤ 32767 ∧
      (((load [0]).setReg 1 32767).value (.reg 1)).toNat ≤ 32767 := by decide

theorem witness_MemoryIsWrittenByWmemAlone :
    ((load [7]).mem.wf = true ∧ ((load [7]).value (.lit 32767)).toNat ≤ 32767) ∧
      32767 < (((load [7]).setReg 1 32768).value (.reg 1)).toNat ∧
      (∀ a v, Instr.noop ≠ .wmem a v) ∧
      exec .noop (load [21]) = .next (stateOr (load [21]) (exec .noop (load [21]))) :=
  ⟨by decide, by decide, by simp, next_stateOr _ (by decide)⟩

/-- A machine whose stack holds one entry at most. -/
def shallow (s : State) : State := { s with params := { stackDepth := some 1, debugPort := false } }

theorem witness_PushStacksItsValue :
    (load [0]).stackFull = false ∧ (shallow (load [0])).stackFull = false := by decide

theorem witness_PopAndRetTakeTheTop :
    ((load [0]).setStack [40000, 5]).stack = 40000 :: [5] ∧ (load [0]).stack = [] := by decide

theorem witness_CallStacksTheReturnAddress :
    (loadAt 32766 [0]).stackFull = false ∧ (shallow (load [0])).stackFull = false := by decide

theorem witness_CallThenRetReturns :
    (load [17, 5]).stackFull = false ∧
      exec (.call (.lit 5)) (load [17, 5]) =
        .next (stateOr (load [17, 5]) (exec (.call (.lit 5)) (load [17, 5]))) :=
  ⟨by decide, next_stateOr _ (by decide)⟩

theorem witness_InTakesTheFrontWord : ((load [20, 32768]).setInput [65535, 1]).input = 65535 :: [1] := by
  decide

theorem witness_InWithoutInputWaitsOrIsFatal :
    ((load [0]).input = [] ∧ (load [0]).inputClosed = false) ∧
      ({ load [0] with inputClosed := true } : State).input = [] ∧
      ({ load [0] with inputClosed := true } : State).inputClosed = true := by decide

theorem witness_HaltAndNoopChangeNothingElse : (load [18]).stack = [] := by decide

theorem witness_NoopStepMovesThePcByOne :
    ((loadAt 32768 []).active = true ∧ 32767 < (loadAt 32768 []).pc.toNat) ∧
      (loadAt 32767 [21]).active = true ∧ (loadAt 32767 [21]).pc.toNat = 32767 ∧
      (loadAt 32767 [21]).mem.readCell (loadAt 32767 [21]).pc.toNat = 21 := by decide

/-- Every clause of `withVal` and of the full stack: the operand word above the top, 32776, 32767 and
32775; a full stack and one with room. -/
theorem witness_PushStepFollowsItsRule :
    ((loadAt 32768 []).active = true ∧ 32767 < (loadAt 32768 []).pc.toNat) ∧
      ((loadAt 32767 [2]).mem.readCell 32767 = 2 ∧ 32767 < (loadAt 32767 [2]).pc.toNat + 1) ∧
      ((load [2, 32776]).mem.readCell 0 = 2 ∧ 32776 ≤ (wordAt (load [2, 32776]) 1).toNat) ∧
      ((loadAt 32766 [2, 32767]).pc.toNat + 1 ≤ 32767 ∧
        (wordAt (loadAt 32766 [2, 32767]) 1).toNat ≤ 32767) ∧
      (wordAt (load [2, 32775]) 1).toNat = 32768 + (7 : Reg).val ∧
      (shallow ((load [2, 5]).setStack [1])).params.stackDepth =
        some (shallow ((load [2, 5]).setStack [1])).stack.length ∧
      ((shallow (load [2, 5])).params.stackDepth = some 1 ∧ (shallow (load [2, 5])).stack.length < 1) := by
  decide

theorem witness_JfStepFollowsItsRule :
    ((load [8, 32768, 32767]).active = true ∧ (load [8, 32768, 32767]).pc.toNat ≤ 32767 ∧
        (load [8, 32768, 32767]).mem.readCell (load [8, 32768, 32767]).pc.toNat = 8 ∧
        (wordAt (load [8, 32768, 32767]) 1).toNat = 32768 + (0 : Reg).val ∧
        (wordAt (load [8, 32768, 32767]) 2).toNat ≤ 32767) ∧
      ((loadAt 32766 [8, 0]).mem.readCell 32766 = 8 ∧ 32767 < (loadAt 32766 [8, 0]).pc.toNat + 2) ∧
      32776 ≤ (wordAt (load [8, 0, 65535]) 2).toNat := by decide

theorem witness_AndStepFollowsItsRule :
    ((load [12, 32775, 32768, 32767]).active = true ∧
        (load [12, 32775, 32768, 32767]).pc.toNat ≤ 32767 ∧
        (load [12, 32775, 32768, 32767]).mem.readCell 0 = 12 ∧
        (wordAt (load [12, 32775, 32768, 32767]) 1).toNat = 32768 + (7 : Reg).val ∧
        (wordAt (load [12, 32775, 32768, 32767]) 2).toNat = 32768 + (0 : Reg).val ∧
        (wordAt (load [12, 32775, 32768, 32767]) 3).toNat ≤ 32767) ∧
      (wordAt (load [12, 32767]) 1).toNat ≤ 32767 ∧ 32776 ≤ (wordAt (load [12, 32776]) 1).toNat ∧
      (loadAt 32767 [12]).mem.readCell 32767 = 12 ∧ 32767 < (loadAt 32767 [12]).pc.toNat + 1 := by decide

theorem witness_ExecuteStageChecksTrap :
    (load [0]).value (.reg 0) = 0 ∧ 32767 < (((load [0]).setReg 1 32768).value (.reg 1)).toNat ∧
      (load [0]).stack = [] ∧
      (shallow ((load [0]).setStack [9])).params.stackDepth = some 1 ∧
      1 ≤ (shallow ((load [0]).setStack [9])).stack.length := by decide

/-- A division by zero at address 0. -/
def divides : State := load [11, 32768, 7, 0]

theorem witness_FatalErrorsArePrecise :
    divides.active = true ∧ step divides = .next (after divides) ∧ (after divides).status = .fatal :=
  ⟨by decide, step_after (by decide), by decide⟩

theorem witness_FatalErrorsTransferControlNowhere :
    divides.active = true ∧ step divides = .next (after divides) ∧ (after divides).status = .fatal :=
  ⟨by decide, step_after (by decide), by decide⟩

/-- One fatal error of the instruction and one of the decoder. -/
theorem witness_EveryFatalStepHasOneCause :
    (divides.active = true ∧ step divides = .next (after divides) ∧ (after divides).status = .fatal) ∧
      (load [22]).active = true ∧ step (load [22]) = .next (after (load [22])) ∧
      (after (load [22])).status = .fatal :=
  ⟨⟨by decide, step_after (by decide), by decide⟩, by decide, step_after (by decide), by decide⟩

theorem witness_EndedRunsStayAsTheyAre :
    ((load [0]).setStatus .halted).ended = true ∧ ((load [0]).raise .badOpcode 22).ended = true := by decide

theorem witness_NormalEndsRecordNoFault :
    (load [18]).inv = true ∧ (load [18]).status = .running ∧ (load [18]).stack = [] := by decide

/-- An `in` with no word on offer. -/
def waits : State := load [20, 32768]

theorem witness_AwaitingInputIsAnAbortedIn :
    step waits = .next (after waits) ∧ (after waits).status = .awaitingInput :=
  ⟨step_after (by decide), by decide⟩

theorem witness_AbortedInIsRetriedFromScratch :
    waits.active = true ∧ step waits = .next (after waits) ∧ (after waits).status = .awaitingInput ∧
      envMove (.supply [10]) (after waits) = some ((after waits).setInput [10]) :=
  ⟨by decide, step_after (by decide), by decide, by decide⟩

theorem witness_OnlyTheDestinationRegisterIsWritten :
    exec (.pop 1) ((load [0]).setStack [7]) =
        .next (stateOr (load [0]) (exec (.pop 1) ((load [0]).setStack [7]))) ∧
      dest? (.pop 1) ≠ some 0 := ⟨next_stateOr _ (by decide), by decide⟩

/-- A register file that agrees on the one register read and on no other. -/
theorem witness_OnlyValueOperandsReadRegisters :
    (∀ r, Operand.reg r ∈ values (.add 0 (.reg 1) (.lit 2)) →
      ({ r0 := 9, r1 := 0, r2 := 9, r3 := 9, r4 := 9, r5 := 9, r6 := 9, r7 := 9 } : RegFile).get r =
        (load [0]).reg r) ∧
      exec (.add 0 (.reg 1) (.lit 2)) (load [0]) =
        .next (stateOr (load [0]) (exec (.add 0 (.reg 1) (.lit 2)) (load [0]))) :=
  ⟨by decide, next_stateOr _ (by decide)⟩

/-- A memory that agrees in the cell read and not elsewhere. -/
theorem witness_OnlyRmemAndWmemTouchMemory :
    (∀ a v, Instr.rmem 0 (.lit 1) ≠ .wmem a v) ∧
      (∀ d a, Instr.rmem 0 (.lit 1) = .rmem d a →
        Memory.readCell [(0, 9), (2, 5)] ((load [0, 5]).value a).toNat =
          (load [0, 5]).mem.readCell ((load [0, 5]).value a).toNat) ∧
      exec (.rmem 0 (.lit 1)) (load [0, 5]) =
        .next (stateOr (load [0, 5]) (exec (.rmem 0 (.lit 1)) (load [0, 5]))) := by
  refine ⟨by simp, fun d a h => ?_, next_stateOr _ (by decide)⟩
  cases h
  decide

theorem witness_TheStackMovesOnlyAtItsTop :
    exec (.push (.lit 3)) (load [0]) =
      .next (stateOr (load [0]) (exec (.push (.lit 3)) (load [0]))) := next_stateOr _ (by decide)

theorem witness_PortsMoveOnlyByInAndOut :
    exec (.inp 0) ((load [0]).setInput [1]) =
      .next (stateOr (load [0]) (exec (.inp 0) ((load [0]).setInput [1]))) := next_stateOr _ (by decide)

/-- A store of an invalid opcode word and one of `halt`, each to the next instruction's opcode word. -/
theorem witness_AStoreIsSeenByTheNextFetch :
    ((load [16, 3, 22]).mem.wf = true ∧ (load [16, 3, 22]).active = true ∧
      (Instr.wmem (.lit 3) (.lit 22)).wellFormed = true ∧
      (load [16, 3, 22]).mem.holds (load [16, 3, 22]).pc.toNat (encode (.wmem (.lit 3) (.lit 22))) ∧
      ((load [16, 3, 22]).value (.lit 3)).toNat ≤ 32767 ∧
      ((load [16, 3, 22]).value (.lit 3)).toNat = (load [16, 3, 22]).pc.toNat + 3 ∧
      21 < ((load [16, 3, 22]).value (.lit 22)).toNat) ∧
    ((loadAt 32764 [16, 32767, 0]).mem.wf = true ∧ (loadAt 32764 [16, 32767, 0]).active = true ∧
      (Instr.wmem (.lit 32767) (.lit 0)).wellFormed = true ∧
      (loadAt 32764 [16, 32767, 0]).mem.holds (loadAt 32764 [16, 32767, 0]).pc.toNat
        (encode (.wmem (.lit 32767) (.lit 0))) ∧
      ((loadAt 32764 [16, 32767, 0]).value (.lit 32767)).toNat =
        (loadAt 32764 [16, 32767, 0]).pc.toNat + 3 ∧
      (loadAt 32764 [16, 32767, 0]).value (.lit 0) = 0) ∧
    (0 < 4 ∧ (32767 : Word).toNat + 0 = 32767) ∧ (3 < 4 ∧ (32764 : Word).toNat + 3 = 32767) := by
  simp only [encode, Instr.operandWords, Memory.holds]
  decide

theorem witness_StepsKeepTheInvariant :
    divides.inv = true ∧ step divides = .next (after divides) := ⟨by decide, step_after (by decide)⟩

theorem witness_EnvironmentMovesKeepTheInvariant :
    (load [0]).inv = true ∧
      envMove .closeInput (load [0]) = some { load [0] with inputClosed := true } := by decide

/-- Booted with `in r0` and no input, stepped, supplied with a word, and stepped again: reachable, with
the word in r0. -/
theorem witness_ReachableStatesMeetTheInvariant :
    ∃ s, Reachable Config.Params.suggested s ∧ s.reg 0 = 10 ∧ s.pc = 2 := by
  have h0 : Reachable Config.Params.suggested waits :=
    .boot (image := [20, 0, 0, 128]) (input := []) (closed := false) (by decide)
  have h1 : Reachable Config.Params.suggested (after waits) := h0.step (step_after (by decide))
  have h2 : Reachable Config.Params.suggested ((after waits).setInput [10]) :=
    h1.env (e := .supply [10]) (by decide)
  exact ⟨after ((after waits).setInput [10]), h2.step (step_after (by decide)), by decide, by decide⟩

theorem witness_InstructionsKeepWordCleanness :
    (Instr.rmem 0 (.lit 1)).wellFormed = true ∧ (load [0, 32767]).wordClean ∧
      exec (.rmem 0 (.lit 1)) (load [0, 32767]) =
        .next (stateOr (load [0, 32767]) (exec (.rmem 0 (.lit 1)) (load [0, 32767]))) ∧
      isWord ((load [0, 32767]).mem.readCell ((load [0, 32767]).value (.lit 1)).toNat) = true := by
  refine ⟨by decide, ⟨by decide, ?_⟩, next_stateOr _ (by decide), by decide⟩
  intro w hw
  cases hw

theorem witness_InstructionsKeepWordCleanness_in_call :
    (∀ w ∈ ((load [0]).setInput [32767]).input.head?, isWord w = true) ∧
      isWord ((loadAt 32765 [0]).pc + 2) = true := by
  refine ⟨?_, by decide⟩
  intro w hw
  cases hw
  decide

theorem witness_TheImageIsLoadedVerbatim :
    (State.boot Config.Params.suggested [0, 128] [] false).isSome = true ∧
      ([0, 128] : List Byte)[2 * 0]? = some 0 ∧ ([0, 128] : List Byte)[2 * 0 + 1]? = some 128 ∧
      ([0, 128] : List Byte).length ≤ 2 * 1 := by decide

theorem witness_TheLoaderRefusesUnfitImages :
    (State.boot Config.Params.suggested [] [] true).isSome = true ∧
      (State.boot Config.Params.suggested [1] [] true).isSome = false ∧
      (State.boot Config.Params.suggested [] [1] true).isSome = false := by decide

theorem witness_ResetLeavesItsValues :
    (State.boot Config.Params.suggested [19, 0] [7] false).isSome = true := by decide

theorem witness_TheDebugPortOffersNothingElse :
    debugAccess (.writeReg 7 65535) (withPort (load [0])) =
        some (.done, (withPort (load [0])).setReg 7 65535) ∧
      debugAccess .resume (withPort (load [0])) = some (.done, withPort (load [0])) := by decide

theorem witness_ReadingTheRegistersChangesNothing : (withPort (load [0])).debuggable = true := by decide

/-- The port is usable, the memory canonical; the clauses' conditions at their ends are numbers. -/
theorem witness_DebugWritesReachOneRegisterOrCell :
    (withPort (load [0])).debuggable = true ∧ (withPort (load [0])).mem.wf = true ∧
      (∃ q : Reg, q.val = 7) ∧ (∃ v, v = 65535 ∧ v ≤ 65535) ∧ (∃ a, a = 32767 ∧ a ≤ 32767) ∧
      (∃ i, i = 8 ∧ 7 < i) ∧ (∃ a, a = 32768 ∧ 32767 < a) ∧ ∃ v, v = 65536 ∧ 65535 < v := by
  simp only [exists_eq_left]
  exact ⟨by decide, by decide, ⟨7, rfl⟩, by decide, by decide, by decide, by decide, by decide⟩

theorem witness_TheDebugPortIsUsableOnlyInARun :
    ((withPort (load [0])).setStatus .awaitingInput).params.debugPort = true ∧
      ((withPort (load [0])).setStatus .awaitingInput).ended = false := by decide

theorem witness_InputIsSuppliedInOrder :
    (load [0]).inputClosed = false ∧ ({ load [0] with inputClosed := true } : State).inputClosed = true ∧
      (load [0]).input = [] ∧ ((load [0]).setInput [5]).input ≠ [] := by decide

end Sys2Proof.Tests
end

section
/-! PROOFS. The encoding (30_encoding.md): what each format and the opcode map answer, the length of an
instruction, what an operand word stands for, and the step on an invalid opcode word. -/

namespace Sys2Proof

/-! ### the formats of R73: everything one that answers an instruction read -/

section Formats

variable {ws rest : List Word} {i : Instr}

theorem decodeFV_eq_instr {mk : Operand → Instr} (h : decodeFV ws mk = .instr i rest) :
    ∃ v, v.wellFormed = true ∧ ws = [v.word] ++ rest ∧ i = mk v := by
  obtain ⟨v, ws₁, hv, rfl, hi⟩ := takeVal_eq_instr h
  cases hi
  exact ⟨v, hv, rfl, rfl⟩

theorem decodeFD_eq_instr {mk : Reg → Instr} (h : decodeFD ws mk = .instr i rest) :
    ∃ d, ws = [Reg.word d] ++ rest ∧ i = mk d := by
  obtain ⟨d, ws₁, rfl, hi⟩ := takeDst_eq_instr h
  cases hi
  exact ⟨d, rfl, rfl⟩

theorem decodeFDV_eq_instr {mk : Reg → Operand → Instr} (h : decodeFDV ws mk = .instr i rest) :
    ∃ d v, v.wellFormed = true ∧ ws = [Reg.word d, v.word] ++ rest ∧ i = mk d v := by
  obtain ⟨d, ws₁, rfl, h₁⟩ := takeDst_eq_instr h
  obtain ⟨v, ws₂, hv, rfl, hi⟩ := takeVal_eq_instr h₁
  cases hi
  exact ⟨d, v, hv, rfl, rfl⟩

theorem decodeFVV_eq_instr {mk : Operand → Operand → Instr} (h : decodeFVV ws mk = .instr i rest) :
    ∃ a b, a.wellFormed = true ∧ b.wellFormed = true ∧ ws = [a.word, b.word] ++ rest ∧
      i = mk a b := by
  obtain ⟨a, ws₁, ha, rfl, h₁⟩ := takeVal_eq_instr h
  obtain ⟨b, ws₂, hb, rfl, hi⟩ := takeVal_eq_instr h₁
  cases hi
  exact ⟨a, b, ha, hb, rfl, rfl⟩

theorem decodeFDVV_eq_instr {mk : Reg → Operand → Operand → Instr}
    (h : decodeFDVV ws mk = .instr i rest) :
    ∃ d a b, a.wellFormed = true ∧ b.wellFormed = true ∧
      ws = [Reg.word d, a.word, b.word] ++ rest ∧ i = mk d a b := by
  obtain ⟨d, ws₁, rfl, h₁⟩ := takeDst_eq_instr h
  obtain ⟨a, ws₂, ha, rfl, h₂⟩ := takeVal_eq_instr h₁
  obtain ⟨b, ws₃, hb, rfl, hi⟩ := takeVal_eq_instr h₂
  cases hi
  exact ⟨d, a, b, ha, hb, rfl, rfl⟩

end Formats

/-! ### the opcode map of R80 -/

/-- Everything the decoder that answers an instruction read: its opcode word and its operand words;
and the instruction is well formed. The cases are grouped by format; `h_1` is opcode 0. -/
theorem decodeOp_eq_instr {op : Word} {ws rest : List Word} {i : Instr}
    (h : decodeOp op ws = .instr i rest) :
    i.wellFormed = true ∧ op = i.opcode ∧ ws = i.operandWords ++ rest := by
  unfold decodeOp at h
  split at h
  case h_1 hop | h_19 hop | h_22 hop =>
    cases h
    exact ⟨rfl, BitVec.eq_of_toNat_eq hop, rfl⟩
  case h_3 hop | h_7 hop | h_18 hop | h_20 hop =>
    obtain ⟨v, hv, rfl, rfl⟩ := decodeFV_eq_instr h
    exact ⟨hv, BitVec.eq_of_toNat_eq hop, rfl⟩
  case h_4 hop | h_21 hop =>
    obtain ⟨d, rfl, rfl⟩ := decodeFD_eq_instr h
    exact ⟨rfl, BitVec.eq_of_toNat_eq hop, rfl⟩
  case h_2 hop | h_15 hop | h_16 hop =>
    obtain ⟨d, v, hv, rfl, rfl⟩ := decodeFDV_eq_instr h
    exact ⟨hv, BitVec.eq_of_toNat_eq hop, rfl⟩
  case h_8 hop | h_9 hop | h_17 hop =>
    obtain ⟨a, b, ha, hb, rfl, rfl⟩ := decodeFVV_eq_instr h
    exact ⟨Bool.and_eq_true_iff.mpr ⟨ha, hb⟩, BitVec.eq_of_toNat_eq hop, rfl⟩
  case h_5 hop | h_6 hop | h_10 hop | h_11 hop | h_12 hop | h_13 hop | h_14 hop =>
    obtain ⟨d, a, b, ha, hb, rfl, rfl⟩ := decodeFDVV_eq_instr h
    exact ⟨Bool.and_eq_true_iff.mpr ⟨ha, hb⟩, BitVec.eq_of_toNat_eq hop, rfl⟩
  case h_23 => cases h

/-- An opcode word of 22 to 65535 is rejected before any operand is read (R82). -/
theorem decodeOp_of_gt {op : Word} (h : 21 < op.toNat) (ws : List Word) :
    decodeOp op ws = .rejected (.badOpcode op) := by
  unfold decodeOp
  split
  case h_23 => rfl
  all_goals omega

/-! ### lengths -/

/-- The table of R72 gives each instruction the words the encoder writes: its operands and one more. -/
@[simp] theorem lengthOf_opcode (i : Instr) : lengthOf i.opcode = i.operandWords.length + 1 := by
  cases i <;> rfl

/-- No instruction has more than three operands (R73). -/
theorem operandWords_length_le (i : Instr) : i.operandWords.length ≤ 3 := by
  cases i <;> simp [Instr.operandWords]

/-- Settles O3: what is decoded stood there as its own encoding, and R72's table agrees with the
encoder at every opcode. -/
theorem lengthIsGivenByTheOpcodeAlone : Obligations.LengthIsGivenByTheOpcodeAlone := by
  refine ⟨by decide, by decide, by decide, by decide, fun op ws rest i h => ?_⟩
  obtain ⟨-, rfl, rfl⟩ := decodeOp_eq_instr h
  have hle := operandWords_length_le i
  rw [lengthOf_opcode, List.length_cons, List.length_append]
  exact ⟨by omega, rfl, by omega, by omega⟩

/-! ### operand words -/

/-- The word 32768 + q is the operand word of register q (R75). -/
theorem Reg.word_eq_of_toNat {w : Word} {q : Reg} (h : w.toNat = 32768 + q.val) : Reg.word q = w :=
  BitVec.eq_of_toNat_eq (by rw [Reg.word_toNat, h])

theorem Operand.lit_wellFormed {n : Word} : (Operand.lit n).wellFormed = true ↔ n.toNat ≤ 32767 :=
  decide_eq_true_iff

theorem takeVal_of_invalid (k : Nat) {w : Word} (ws : List Word)
    (f : Operand → List Word → Decoded) (h : 32776 ≤ w.toNat) :
    takeVal k (w :: ws) f = .rejected (.badOperand w) := by
  simp [takeVal, Operand.ofWord?_eq_none.mpr h]

/-- Settles O5, one clause for each range of R75. -/
theorem valueOperandWordsMeanLiteralsOrRegisters :
    Obligations.ValueOperandWordsMeanLiteralsOrRegisters := by
  intro s w k ws f
  refine ⟨fun hw => ?literal, fun q hq => ?register, takeVal_of_invalid k ws f, rfl⟩
  case literal => exact ⟨.lit w, takeVal_word k ws f (Operand.lit_wellFormed.mpr hw), rfl⟩
  case register =>
    obtain rfl := Reg.word_eq_of_toNat hq
    exact ⟨.reg q, takeVal_word (o := .reg q) k ws f rfl, rfl⟩

/-- Bit 15 of a word is clear exactly for 0 to 32767. -/
theorem getLsbD_fifteen_eq_false {w : Word} : w.getLsbD 15 = false ↔ w.toNat ≤ 32767 := by
  have hmsb : w.getLsbD 15 = w.msb := (BitVec.msb_eq_getLsbD_last w).symm
  rw [hmsb, BitVec.msb_eq_false_iff_two_mul_lt]
  omega

/-- Settles O7: with bit 15 clear the word is below 32768, so it is its own 15 low bits; and a literal
the decoder accepts is well formed. -/
theorem literalsAreFifteenBits : Obligations.LiteralsAreFifteenBits := by
  refine fun s w => ⟨fun hbit => ?_, fun o ho hv => ?_⟩
  · have hw : w.toNat ≤ 32767 := getLsbD_fifteen_eq_false.mp hbit
    refine ⟨.lit w, Operand.ofWord?_word (Operand.lit_wellFormed.mpr hw), ?_,
      Reg.ofWord?_eq_none.mpr (.inl hw)⟩
    rw [Machine.State.value_lit, BitVec.toNat_setWidth]
    omega
  · cases o with
    | lit n =>
      have hn : n.toNat ≤ 32767 := Operand.lit_wellFormed.mp (Operand.ofWord?_some ho).2
      exact absurd hn (Nat.not_le.mpr hv)
    | reg q => exact ⟨q, rfl⟩

end Sys2Proof

namespace Sys2Proof.Machine

/-! ### the step on an invalid opcode word -/

/-- Below the top of memory the fetch decodes the word at the pc and what follows it (R77). -/
theorem State.fetch_of_le {s : State} (h : s.pc.toNat ≤ 32767) :
    s.fetch = decodeOp (s.mem.readCell s.pc.toNat) (s.mem.wordsFrom 3 (s.pc.toNat + 1)) := by
  simp [State.fetch, State.window, Memory.wordsFrom, h, decode]

/-- An active step whose fetch is rejected raises the reason (R78). -/
theorem step_of_rejected {s : State} {e : DecodeError} (ha : s.active = true)
    (hf : s.fetch = .rejected e) : step s = .next (s.resume.raiseDecode e) := by
  rw [step_of_active (State.active_iff.mp ha), activeStep, hf]

/-- Settles O11: the fetch is rejected on the opcode word alone. -/
theorem invalidOpcodeWordsAreFatal : Obligations.InvalidOpcodeWordsAreFatal := by
  intro s op ha hpc hop h
  have hf : s.fetch = .rejected (.badOpcode op) := by
    rw [State.fetch_of_le hpc, hop, decodeOp_of_gt h]
  exact ⟨s.resume.raise .badOpcode op, step_of_rejected ha hf, rfl, rfl, rfl⟩

end Sys2Proof.Machine
end

section
/-! PROOFS. Exceptions (60_exceptions.md): what the invariant says of the fault record, the two normal
ends of a run, and the debug port's reading of the registers. -/

namespace Sys2Proof.Machine

/-! ### the invariant and the fault record -/

theorem State.inv_iff {s : State} :
    s.inv = true ↔
      s.mem.wf = true ∧ s.faultOk = true ∧ s.stackOk = true ∧ s.inputOk = true := by
  simp [State.inv, and_assoc]

/-- Outside Fatal the fault record is the one a reset leaves (R30). -/
theorem State.faultOk_iff_of_not_fatal {s : State} (h : s.status ≠ .fatal) :
    s.faultOk = true ↔ s.fault = { cause := .none, pc := 0, word := 0 } := by
  unfold State.faultOk
  split
  · next hfatal => exact absurd hfatal h
  · exact decide_eq_true_iff

theorem State.fault_cause_eq_none {s : State} (hinv : s.inv = true) (h : s.status ≠ .fatal) :
    s.fault.cause = .none := by
  obtain ⟨-, hfault, -, -⟩ := State.inv_iff.mp hinv
  rw [(State.faultOk_iff_of_not_fatal h).mp hfault]

/-! ### the normal ends -/

theorem exec_halt (s : State) : exec .halt s = .next ((s.setStatus .halted).advance 1) := rfl

/-- On the empty stack `ret` answers what `halt` answers (R161). -/
theorem exec_ret_of_stack_nil {s : State} (h : s.stack = []) : exec .ret s = exec .halt s := by
  rcases execRet_cases s with ⟨-, hret⟩ | ⟨v, rest, hstack, -⟩
  · exact hret
  · cases h.symm.trans hstack

/-- Settles O39: both ends keep the fault record, and the invariant says that of a running state
records no cause. -/
theorem normalEndsRecordNoFault : Obligations.NormalEndsRecordNoFault := by
  intro s hinv hrun
  have hcause : s.fault.cause = .none := State.fault_cause_eq_none hinv (by simp [hrun])
  have hhalt : ∃ t, exec .halt s = .next t ∧ t.status = .halted ∧ t.fault.cause.code = 0 :=
    ⟨_, exec_halt s, rfl, congrArg Cause.code hcause⟩
  exact ⟨hhalt, fun hstack => exec_ret_of_stack_nil hstack ▸ hhalt⟩

/-! ### the debug port -/

/-- Where the port is usable an access is answered (R216). -/
theorem debugAccess_of_debuggable {s : State} (h : s.debuggable = true) (a : DebugAccess) :
    debugAccess a s = some (debugAnswer a s) := if_pos h

/-- Settles O57: the port answers the register file itself, and hands the state back. -/
theorem readingTheRegistersChangesNothing : Obligations.ReadingTheRegistersChangesNothing := by
  intro s hport
  exact ⟨s.regs, debugAccess_of_debuggable hport .readRegs, fun _ => rfl⟩

end Sys2Proof.Machine
end

section
/-! PROOFS. Reset (70_reset_and_hazards.md): the memory a loaded image leaves. -/

namespace Sys2Proof.Machine

/-- Cell `k` of a loaded image is the word of bytes `2k` and `2k + 1`, an absent byte as unfilled
memory (R246). -/
theorem Memory.readCell_ofBytes (bs : List Byte) (k : Nat) :
    (Memory.ofBytes 0 bs).readCell k =
      wordOfBytes (bs[2 * k]?.getD Memory.unlisted) (bs[2 * k + 1]?.getD Memory.unlisted) := by
  have hbyte (j : Nat) : (Memory.ofBytes 0 bs).readByte j = bs[j]?.getD Memory.unlisted := by
    simpa using Memory.readByte_ofBytes 0 j bs
  rw [Memory.readCell, hbyte, hbyte]

/-- After a reset that completes, memory is the image's (R241). -/
theorem State.boot_mem {p : Config.Params} {image : List Byte} {input : List Word} {closed : Bool}
    {s : State} (h : State.boot p image input closed = some s) : s.mem = Memory.ofBytes 0 image := by
  obtain ⟨-, rfl⟩ := State.boot_eq_some h
  rfl

/-- Settles O53: both bytes of the cell are bytes of the image, or neither is. -/
theorem theImageIsLoadedVerbatim : Obligations.TheImageIsLoadedVerbatim := by
  intro p image input closed s hboot
  rw [State.boot_mem hboot]
  constructor
  · intro k lo hi hlo hhi
    rw [Memory.readCell_ofBytes, hlo, hhi]
    rfl
  · intro k hk
    have hlo : image[2 * k]? = none := List.getElem?_eq_none hk
    have hhi : image[2 * k + 1]? = none := List.getElem?_eq_none (Nat.le_succ_of_le hk)
    rw [Memory.readCell_ofBytes, hlo, hhi]
    rfl

end Sys2Proof.Machine
end

section
/-! PROOFS. The encoder and the decoder are inverse (30_encoding.md sections 1 to 3), and what the
words in memory at the pc have to do with them. -/

namespace Sys2Proof

/-- Settles O1, one round trip for each constructor. -/
theorem decodeOfEncodeIsTheInstruction : Obligations.DecodeOfEncodeIsTheInstruction := by
  intro i
  cases i with
  | halt => exact Laws.RoundTrip.halt
  | set d v => exact Laws.RoundTrip.set d v
  | push v => exact Laws.RoundTrip.push v
  | pop d => exact Laws.RoundTrip.pop d
  | eq d a b => exact Laws.RoundTrip.eq d a b
  | gt d a b => exact Laws.RoundTrip.gt d a b
  | jmp v => exact Laws.RoundTrip.jmp v
  | jt a v => exact Laws.RoundTrip.jt a v
  | jf a v => exact Laws.RoundTrip.jf a v
  | add d a b => exact Laws.RoundTrip.add d a b
  | mult d a b => exact Laws.RoundTrip.mult d a b
  | mod d a b => exact Laws.RoundTrip.mod d a b
  | and d a b => exact Laws.RoundTrip.and d a b
  | or d a b => exact Laws.RoundTrip.or d a b
  | not d a => exact Laws.RoundTrip.not d a
  | rmem d a => exact Laws.RoundTrip.rmem d a
  | wmem a v => exact Laws.RoundTrip.wmem a v
  | call v => exact Laws.RoundTrip.call v
  | ret => exact Laws.RoundTrip.ret
  | out v => exact Laws.RoundTrip.out v
  | inp d => exact Laws.RoundTrip.inp d
  | noop => exact Laws.RoundTrip.noop

/-- What the decoder answers stood there as its own encoding, and is well formed. -/
theorem decode_eq_instr {ws rest : List Word} {i : Instr} (h : decode ws = .instr i rest) :
    i.wellFormed = true ∧ ws = encode i ++ rest := by
  cases ws with
  | nil => cases h
  | cons op ws =>
    obtain ⟨hwf, rfl, rfl⟩ := decodeOp_eq_instr h
    exact ⟨hwf, rfl⟩

/-- Settles O2. -/
theorem decoderAcceptsOnlyEncodings : Obligations.DecoderAcceptsOnlyEncodings :=
  fun _ _ _ => decode_eq_instr

/-- Settles O4: each sequence is the encoding of its instruction. -/
theorem sampleWordsDecodeToTheirInstruction : Obligations.SampleWordsDecodeToTheirInstruction := by
  have hdecode (i : Instr) (hwf : i.wellFormed = true) : decode (encode i) = .instr i [] := by
    simpa using decodeOfEncodeIsTheInstruction i hwf []
  exact ⟨hdecode .halt rfl, hdecode (.set 0 (.lit 4)) rfl, hdecode (.pop 2) rfl,
    hdecode (.gt 0 (.lit 7) (.reg 7)) rfl, hdecode (.jt (.reg 1) (.lit 6)) rfl,
    hdecode (.add 0 (.reg 0) (.lit 1)) rfl, hdecode (.wmem (.lit 13) (.reg 0)) rfl,
    hdecode (.call (.lit 5)) rfl, hdecode (.out (.lit 65)) rfl, hdecode (.inp 3) rfl⟩

theorem takeDst_of_invalid (k : Nat) {w : Word} (ws : List Word) (f : Reg → List Word → Decoded)
    (h : w.toNat ≤ 32767 ∨ 32776 ≤ w.toNat) : takeDst k (w :: ws) f = .rejected (.badDest w) := by
  simp [takeDst, Reg.ofWord?_eq_none.mpr h]

/-- Settles O6, one clause for each side of R76. -/
theorem destinationWordsMustNameARegister : Obligations.DestinationWordsMustNameARegister := by
  intro s w k ws f
  refine ⟨fun q hq => ?_, takeDst_of_invalid k ws f, rfl⟩
  obtain rfl := Reg.word_eq_of_toNat hq
  exact takeDst_word k q ws f

/-- A value operand word is one the decoder rejects, or the word of a well-formed operand (R75). -/
theorem Operand.word_cases (w : Word) :
    32776 ≤ w.toNat ∨ ∃ o : Operand, o.wellFormed = true ∧ o.word = w := by
  cases h : Operand.ofWord? w with
  | none => exact .inl (Operand.ofWord?_eq_none.mp h)
  | some o => exact .inr ⟨o, (Operand.ofWord?_some h).symm⟩

/-- A destination word is one the decoder rejects, or the word of a register (R76). -/
theorem Reg.word_cases (w : Word) :
    (w.toNat ≤ 32767 ∨ 32776 ≤ w.toNat) ∨ ∃ r : Reg, Reg.word r = w := by
  cases h : Reg.ofWord? w with
  | none => exact .inl (Reg.ofWord?_eq_none.mp h)
  | some r => exact .inr ⟨r, Reg.ofWord?_some h⟩

end Sys2Proof

namespace Sys2Proof.Machine

/-! ### the words at the pc (R77) -/

/-- An address within 16 bits does not wrap. -/
theorem toNat_add_ofNat {p : Word} {k : Nat} (h : p.toNat + k < 65536) :
    (p + BitVec.ofNat 16 k).toNat = p.toNat + k := by
  rw [BitVec.toNat_add, BitVec.toNat_ofNat]
  omega

theorem Memory.wordsFrom_of_le (m : Memory) {a : Nat} (n : Nat) (h : a ≤ 32767) :
    m.wordsFrom (n + 1) a = m.readCell a :: m.wordsFrom n (a + 1) := if_pos h

theorem Memory.wordsFrom_of_gt (m : Memory) {a : Nat} (n : Nat) (h : 32767 < a) :
    m.wordsFrom n a = [] := by
  cases n with
  | zero => rfl
  | succ n => exact if_neg (Nat.not_le.mpr h)

/-- The words read end at address 32767. -/
theorem Memory.length_wordsFrom_le (m : Memory) (n : Nat) {a : Nat} (h : a ≤ 32768) :
    a + (m.wordsFrom n a).length ≤ 32768 := by
  induction n generalizing a with
  | zero => exact h
  | succ n ih =>
    by_cases ha : a ≤ 32767
    · have := ih (a := a + 1) (by omega)
      rw [Memory.wordsFrom_of_le m n ha, List.length_cons]
      omega
    · rw [Memory.wordsFrom_of_gt m _ (by omega)]
      exact h

theorem Memory.getElem?_wordsFrom (m : Memory) {n a k : Nat} (hk : k < n) (ha : a + k ≤ 32767) :
    (m.wordsFrom n a)[k]? = some (m.readCell (a + k)) := by
  induction n generalizing a k with
  | zero => cases hk
  | succ n ih =>
    rw [Memory.wordsFrom_of_le m n (by omega)]
    cases k with
    | zero => rfl
    | succ k =>
      rw [List.getElem?_cons_succ, ih (by omega) (by omega), Nat.add_right_comm]
      rfl

/-- Words that stand in memory are the first ones read there. -/
theorem Memory.wordsFrom_of_holds {m : Memory} {n a : Nat} {ws : List Word} (h : m.holds a ws)
    (hn : ws.length ≤ n) : ∃ rest, m.wordsFrom n a = ws ++ rest := by
  induction ws generalizing n a with
  | nil => exact ⟨_, rfl⟩
  | cons w ws ih =>
    obtain ⟨ha, rfl, hws⟩ := h
    cases n with
    | zero => cases hn
    | succ n =>
      obtain ⟨rest, hrest⟩ := ih hws (Nat.le_of_succ_le_succ hn)
      exact ⟨rest, by rw [Memory.wordsFrom_of_le m n ha, hrest]; rfl⟩

/-- With the pc above the top of memory not even the opcode word is there. -/
theorem State.fetch_of_gt {s : State} (h : 32767 < s.pc.toNat) :
    s.fetch = .rejected (.truncated 0) := by
  rw [State.fetch, State.window, Memory.wordsFrom_of_gt _ _ h]
  rfl

/-- A well-formed instruction whose words stand at the pc is the one fetched. -/
theorem State.fetch_of_holds {s : State} {i : Instr} (hwf : i.wellFormed = true)
    (h : s.mem.holds s.pc.toNat (encode i)) : ∃ rest, s.fetch = .instr i rest := by
  have hlen : (encode i).length ≤ 4 := Nat.succ_le_succ (operandWords_length_le i)
  obtain ⟨rest, hrest⟩ := Memory.wordsFrom_of_holds h hlen
  exact ⟨rest, by rw [State.fetch, State.window, hrest, decodeOfEncodeIsTheInstruction i hwf]⟩

/-- An active step whose fetch answers an instruction runs it (R78). -/
theorem step_of_fetched {s : State} {i : Instr} {rest : List Word} (ha : s.active = true)
    (hf : s.fetch = .instr i rest) : step s = exec i s.resume := by
  rw [step_of_active (State.active_iff.mp ha), activeStep, hf]

/-- Settles O8. -/
theorem stepRunsTheDecodedInstruction : Obligations.StepRunsTheDecodedInstruction := by
  intro s i ha hwf hmem
  obtain ⟨rest, hf⟩ := State.fetch_of_holds hwf hmem
  exact step_of_fetched ha hf

/-- With the pc above the top of memory an active step is FETCH_ADDR with that pc (R77). -/
theorem step_of_pc_gt {s : State} (ha : s.active = true) (hpc : 32767 < s.pc.toNat) :
    step s = .next (s.raise .fetchAddr s.pc) := by
  rw [step_of_rejected ha (State.fetch_of_gt hpc)]
  exact congrArg (fun w => Host.Outcome.next (s.raise .fetchAddr w)) (BitVec.add_zero s.pc)

/-- Settles O12. -/
theorem fetchAboveTheTopIsFatal : Obligations.FetchAboveTheTopIsFatal :=
  fun _ => step_of_pc_gt

/-- Settles O13: the words of what is fetched are among those read, which end at the top of memory.
-/
theorem thePcDoesNotWrap : Obligations.ThePcDoesNotWrap := by
  intro s i rest hf
  have hpc : s.pc.toNat ≤ 32768 := by
    by_contra hgt
    rw [State.fetch_of_gt (by omega)] at hf
    cases hf
  have hwords : s.mem.wordsFrom 4 s.pc.toNat = encode i ++ rest := (decode_eq_instr hf).2
  have hlen := Memory.length_wordsFrom_le s.mem 4 hpc
  rw [hwords, List.length_append] at hlen
  exact ⟨by omega, toNat_add_ofNat (by omega)⟩

end Sys2Proof.Machine
end

section
/-! PROOFS. Each meaning's answer, one equation for each of its cases, and the results and frames
of the single instructions read off them (40_halt_noop.md to 47_io.md). -/

namespace Sys2Proof.Machine

open Sys2Proof.Claims

/-! ### equations: the cases that answer without a fatal error -/

section Answers

variable {s : State}

theorem exec_mod_of_ne_zero (d : Reg) (a : Operand) {b : Operand} (h : s.value b ≠ 0) :
    exec (.mod d a b) s =
      .next ((s.setReg d (aluMod (s.value a) (s.value b))).advance 4) := by
  simp [exec, execMod, State.finishReg, nonzero_eq_true.mpr h]

theorem exec_rmem_of_le (d : Reg) {a : Operand} (h : (s.value a).toNat ≤ 32767) :
    exec (.rmem d a) s = .next ((s.setReg d (s.mem.readCell (s.value a).toNat)).advance 3) := by
  simp [exec, execRmem, State.withAddr, State.finishReg, h]

theorem exec_wmem_of_le {a : Operand} (v : Operand) (h : (s.value a).toNat ≤ 32767) :
    exec (.wmem a v) s =
      .next ((s.setMem (s.mem.writeCell (s.value a).toNat (s.value v))).advance 3) := by
  simp [exec, execWmem, State.withAddr, h]

theorem exec_push_of_room (v : Operand) (h : s.stackFull = false) :
    exec (.push v) s = .next ((s.setStack (s.value v :: s.stack)).advance 2) := by
  simp [exec, execPush, State.pushThen, h]

theorem exec_call_of_room (v : Operand) (h : s.stackFull = false) :
    exec (.call v) s = .next ((s.setStack ((s.pc + 2) :: s.stack)).setPc (s.value v)) := by
  simp [exec, execCall, State.pushThen, h]

theorem exec_pop_of_cons (d : Reg) {v : Word} {rest : List Word} (h : s.stack = v :: rest) :
    exec (.pop d) s = .next (((s.setStack rest).setReg d v).advance 2) := by
  simp [exec, execPop, State.finishReg, h]

theorem exec_ret_of_cons {v : Word} {rest : List Word} (h : s.stack = v :: rest) :
    exec .ret s = .next ((s.setStack rest).setPc v) := by
  simp [exec, execRet, h]

theorem exec_jt_eq (a v : Operand) :
    exec (.jt a v) s = .next (s.setPc (if s.value a = 0 then s.pc + 3 else s.value v)) := by
  rcases execJt_cases a v s with ⟨ha, h⟩ | ⟨ha, h⟩
  · rw [if_neg ha]; exact h
  · rw [if_pos ha]; exact h

theorem exec_jf_eq (a v : Operand) :
    exec (.jf a v) s = .next (s.setPc (if s.value a = 0 then s.value v else s.pc + 3)) := by
  rcases execJf_cases a v s with ⟨ha, h⟩ | ⟨ha, h⟩
  · rw [if_neg ha]; exact h
  · rw [if_pos ha]; exact h

theorem exec_inp_of_cons (d : Reg) {w : Word} {rest : List Word} (h : s.input = w :: rest) :
    exec (.inp d) s = .next (((s.setInput rest).setReg d w).advance 2) := by
  simp [exec, execInp, State.finishReg, h]

theorem exec_inp_of_open (d : Reg) (h : s.input = []) (hc : s.inputClosed = false) :
    exec (.inp d) s = .next (s.setStatus .awaitingInput) := by
  simp [exec, execInp, h, hc]

/-! ### equations: the fatal errors of 60_exceptions.md R202 -/

theorem exec_mod_of_zero (d : Reg) (a : Operand) {b : Operand} (h : s.value b = 0) :
    exec (.mod d a b) s = .next (s.raise .divZero b.word) := by
  simp [exec, execMod, State.fatal, nonzero_eq_false.mpr h]

theorem exec_rmem_of_gt (d : Reg) {a : Operand} (h : 32767 < (s.value a).toNat) :
    exec (.rmem d a) s = .next (s.raise .memAddr (s.value a)) := by
  simp [exec, execRmem, State.withAddr, State.fatal, Nat.not_le.mpr h]

theorem exec_wmem_of_gt {a : Operand} (v : Operand) (h : 32767 < (s.value a).toNat) :
    exec (.wmem a v) s = .next (s.raise .memAddr (s.value a)) := by
  simp [exec, execWmem, State.withAddr, State.fatal, Nat.not_le.mpr h]

theorem exec_push_of_full (v : Operand) (h : s.stackFull = true) :
    exec (.push v) s = .next (s.raise .stackFull 2) := by
  simp [exec, execPush, State.pushThen, State.fatal, h]

theorem exec_call_of_full (v : Operand) (h : s.stackFull = true) :
    exec (.call v) s = .next (s.raise .stackFull 17) := by
  simp [exec, execCall, State.pushThen, State.fatal, h]

theorem exec_pop_of_nil (d : Reg) (h : s.stack = []) :
    exec (.pop d) s = .next (s.raise .stackEmpty 3) := by
  simp [exec, execPop, State.fatal, h]

theorem exec_inp_of_closed (d : Reg) (h : s.input = []) (hc : s.inputClosed = true) :
    exec (.inp d) s = .next (s.raise .inputClosed 20) := by
  simp [exec, execInp, State.fatal, h, hc]

end Answers

/-- Settles O34, from the equations of the fatal cases. -/
theorem executeStageChecksTrap : Obligations.ExecuteStageChecksTrap := by
  intro d a b s
  refine ⟨exec_mod_of_zero d a, fun ha => ⟨exec_rmem_of_gt d ha, exec_wmem_of_gt b ha⟩,
    exec_pop_of_nil d, fun n hn hle => ?_⟩
  have hfull : s.stackFull = true := State.stackFull_eq_true.mpr ⟨n, hn, hle⟩
  exact ⟨exec_push_of_full a hfull, exec_call_of_full a hfull⟩

/-! ### frames -/

/-- Writing a register and moving on changes that register and the pc. -/
theorem onlyReg_setReg_advance (s : State) (d : Reg) (v : Word) (n : Nat) :
    onlyReg s ((s.setReg d v).advance n) d v n :=
  ⟨s.setReg_reg_self d v, fun _ hr => s.setReg_reg_of_ne v hr, rfl, rfl, fun _ => rfl, ⟨rfl, rfl⟩,
    rfl, rfl, rfl, rfl⟩

theorem onlyPc_setPc (s : State) (target : Word) : onlyPc s (s.setPc target) target :=
  ⟨rfl, fun _ => rfl, rfl, fun _ => rfl, ⟨rfl, rfl⟩, rfl, rfl, rfl, rfl⟩

theorem raises_raise (s : State) (c : Cause) (w : Word) : raises (.next (s.raise c w)) c :=
  ⟨s.raise c w, rfl, rfl, rfl⟩

/-! ### the values of compare and ALU -/

theorem boolWord_eqTest (a b : Word) : boolWord (eqTest a b) = if a = b then 1 else 0 := by
  simp [boolWord, eqTest, BitVec.toNat_inj]

theorem boolWord_gtTest (a b : Word) :
    boolWord (gtTest a b) = if b.toNat < a.toNat then 1 else 0 := by
  simp [boolWord, gtTest]

theorem mod32768_toNat (n : Nat) : (mod32768 n).toNat = n % 32768 := by
  rw [mod32768, BitVec.toNat_ofNat]
  omega

theorem mod32768_toNat_lt (n : Nat) : (mod32768 n).toNat < 32768 := by
  rw [mod32768_toNat]
  exact Nat.mod_lt n (by decide)

/-- Reducing modulo 32768 clears bit 15 and keeps the bits below it. -/
theorem getLsbD_mod32768 (w : Word) (i : Nat) :
    (mod32768 w.toNat).getLsbD i = (decide (i < 15) && w.getLsbD i) := by
  rw [BitVec.getLsbD, mod32768_toNat, show 32768 = 2 ^ 15 from rfl, Nat.testBit_mod_two_pow,
    BitVec.getLsbD]

/-- R146's `~a = 65535 - a` is the complement. -/
theorem aluNot_eq (a : Word) : aluNot a = mod32768 (~~~a).toNat := by
  rw [aluNot, BitVec.toNat_not]

theorem aluMod_toNat (a b : Word) : (aluMod a b).toNat = a.toNat % b.toNat := by
  rw [aluMod, BitVec.toNat_ofNat]
  exact Nat.mod_eq_of_lt (Nat.lt_of_le_of_lt (Nat.mod_le _ _) a.isLt)

/-! ### results -/

/-- Settles O14. -/
theorem setCopiesItsValue : Obligations.SetCopiesItsValue :=
  fun d v s => ⟨_, rfl, onlyReg_setReg_advance s d (s.value v) 3⟩

/-- Settles O15. -/
theorem comparisonsGiveOneOrZero : Obligations.ComparisonsGiveOneOrZero := by
  intro d a b s
  constructor
  · exact ⟨_, rfl, boolWord_eqTest _ _ ▸ onlyReg_setReg_advance s d _ 4⟩
  · exact ⟨_, rfl, boolWord_gtTest _ _ ▸ onlyReg_setReg_advance s d _ 4⟩

/-- Settles O16. -/
theorem addAndMultReduceModulo32768 : Obligations.AddAndMultReduceModulo32768 := by
  intro d a b s
  have hlt (n m : Nat) : (((s.setReg d (mod32768 n)).advance m).reg d).toNat < 32768 := by
    simpa using mod32768_toNat_lt n
  exact ⟨⟨_, rfl, hlt _ 4, onlyReg_setReg_advance s d _ 4⟩,
    ⟨_, rfl, hlt _ 4, onlyReg_setReg_advance s d _ 4⟩⟩

/-- Settles O17, with the quotient as the multiple. -/
theorem modGivesTheRemainder : Obligations.ModGivesTheRemainder := by
  intro d a b s hb
  have hframe := onlyReg_setReg_advance s d (aluMod (s.value a) (s.value b)) 4
  refine ⟨_, (s.value a).toNat / (s.value b).toNat, exec_mod_of_ne_zero d a hb, ?_, ?_,
    hframe.1.symm ▸ hframe⟩
  · rw [hframe.1, aluMod_toNat]
    exact Nat.mod_lt _ (Nat.pos_of_ne_zero fun h => hb (BitVec.eq_of_toNat_eq h))
  · rw [hframe.1, aluMod_toNat, Nat.mul_comm, Nat.div_add_mod]

/-- A result reduced modulo 32768, and its bits. -/
theorem onlyReg_mod32768 (s : State) (d : Reg) (n : Nat) {v w : Word} (hv : v = mod32768 w.toNat) :
    onlyReg s ((s.setReg d v).advance n) d v n ∧
      ∀ i, v.getLsbD i = (decide (i < 15) && w.getLsbD i) := by
  subst hv
  exact ⟨onlyReg_setReg_advance s d _ n, getLsbD_mod32768 w⟩

/-- Settles O18: each of the three writes a word modulo 32768. -/
theorem bitwiseOperationsClearBitFifteen : Obligations.BitwiseOperationsClearBitFifteen := by
  intro d a b s
  refine ⟨⟨_, rfl, ?_⟩, ⟨_, rfl, ?_⟩, ⟨_, rfl, ?_⟩⟩
  · simpa using onlyReg_mod32768 s d 4 (v := aluAnd (s.value a) (s.value b)) rfl
  · simpa using onlyReg_mod32768 s d 4 (v := aluOr (s.value a) (s.value b)) rfl
  · obtain ⟨hframe, hbits⟩ := onlyReg_mod32768 s d 3 (aluNot_eq (s.value a))
    simp only [State.advance_reg, State.setReg_reg_self]
    refine ⟨hframe, ?_, fun i => ?_⟩
    · rw [aluNot, mod32768_toNat]
      omega
    · rw [hbits]
      by_cases hi : i < 15
      · simp [hi, show i < 16 by omega]
      · simp [hi]

/-- Settles O19. -/
theorem rmemReadsTheAddressedCell : Obligations.RmemReadsTheAddressedCell :=
  fun d _ s ha => ⟨_, exec_rmem_of_le d ha, onlyReg_setReg_advance s d _ 3⟩

/-- Settles O21. -/
theorem pushStacksItsValue : Obligations.PushStacksItsValue :=
  fun v _ hroom => ⟨_, exec_push_of_room v hroom, rfl, rfl, fun _ => rfl, fun _ => rfl, ⟨rfl, rfl⟩,
    rfl, rfl, rfl, rfl⟩

/-- Settles O22, the two cases of the stack. -/
theorem popAndRetTakeTheTop : Obligations.PopAndRetTakeTheTop := by
  intro d s
  constructor
  · intro v rest hstack
    constructor
    · exact ⟨_, exec_pop_of_cons d hstack, rfl, (s.setStack rest).setReg_reg_self d v,
        fun _ hr => (s.setStack rest).setReg_reg_of_ne v hr, rfl, fun _ => rfl, ⟨rfl, rfl⟩,
        rfl, rfl, rfl, rfl⟩
    · exact ⟨_, exec_ret_of_cons hstack, rfl, rfl, fun _ => rfl, fun _ => rfl, ⟨rfl, rfl⟩,
        rfl, rfl, rfl, rfl⟩
  · intro hstack
    constructor
    · exact exec_pop_of_nil d hstack ▸ raises_raise s .stackEmpty 3
    · exact ⟨_, (exec_ret_of_stack_nil hstack).trans (exec_halt s), rfl, rfl, hstack, fun _ => rfl,
        fun _ => rfl, rfl, rfl, rfl, rfl⟩

/-- Settles O23. -/
theorem jumpsChangeOnlyThePc : Obligations.JumpsChangeOnlyThePc :=
  fun a v s => ⟨⟨_, rfl, onlyPc_setPc s _⟩, ⟨_, exec_jt_eq a v, onlyPc_setPc s _⟩,
    ⟨_, exec_jf_eq a v, onlyPc_setPc s _⟩⟩

/-- Settles O24. -/
theorem callStacksTheReturnAddress : Obligations.CallStacksTheReturnAddress :=
  fun v _ hroom => ⟨_, exec_call_of_room v hroom, rfl, rfl, fun _ => rfl, fun _ => rfl, ⟨rfl, rfl⟩,
    rfl, rfl, rfl, rfl⟩

/-- Settles O25: `ret` pops exactly what `call` stacked. -/
theorem callThenRetReturns : Obligations.CallThenRetReturns := by
  intro v s t hroom hcall
  obtain rfl := Host.Outcome.next.inj ((exec_call_of_room v hroom).symm.trans hcall)
  exact ⟨_, exec_ret_of_cons rfl, onlyPc_setPc s (s.pc + 2)⟩

/-- Settles O26. -/
theorem outAppendsOneByte : Obligations.OutAppendsOneByte :=
  fun _ _ => ⟨_, rfl, rfl, rfl, rfl, rfl, rfl, fun _ => rfl, rfl, fun _ => rfl, rfl, rfl⟩

/-- Settles O27. -/
theorem inTakesTheFrontWord : Obligations.InTakesTheFrontWord :=
  fun d s w rest hinput => ⟨_, exec_inp_of_cons d hinput, rfl,
    (s.setInput rest).setReg_reg_self d w, fun _ hr => (s.setInput rest).setReg_reg_of_ne w hr,
    rfl, rfl, fun _ => rfl, ⟨rfl, rfl⟩, rfl, rfl, rfl⟩

/-- Settles O28. -/
theorem inWithoutInputWaitsOrIsFatal : Obligations.InWithoutInputWaitsOrIsFatal :=
  fun d _ hinput => ⟨exec_inp_of_closed d hinput, exec_inp_of_open d hinput⟩

/-- Settles O29. -/
theorem haltAndNoopChangeNothingElse : Obligations.HaltAndNoopChangeNothingElse :=
  fun s => ⟨⟨_, exec_halt s, rfl, rfl, rfl, fun _ => rfl, rfl, fun _ => rfl, rfl, rfl, rfl, rfl⟩,
    ⟨_, rfl, onlyPc_setPc s (s.pc + 1)⟩, exec_ret_of_stack_nil⟩

end Sys2Proof.Machine
end

section
/-! PROOFS. The step from the words in memory (30_encoding.md R78): the whole rules of single
instructions, and the step as the word-by-word pseudocode. -/

namespace Sys2Proof.Machine

open Sys2Proof.Claims

/-- What the step does with what the decoder answers (R78). -/
def State.answer (s : State) : Decoded → Result
  | .instr i _ => exec i s.resume
  | .rejected e => .next (s.resume.raiseDecode e)

theorem step_eq_answer {s : State} (ha : s.active = true) : step s = s.answer s.fetch := by
  cases hf : s.fetch with
  | instr i rest => exact step_of_fetched ha hf
  | rejected e => exact step_of_rejected ha hf

/-- The step from the opcode word on. -/
theorem step_eq_answer_decodeOp {s : State} (ha : s.active = true) (hpc : s.pc.toNat ≤ 32767) :
    step s = s.answer
      (decodeOp (s.mem.readCell s.pc.toNat) (s.mem.wordsFrom 3 (s.pc.toNat + 1))) := by
  rw [step_eq_answer ha, State.fetch_of_le hpc]

theorem raises_answer_truncated (s : State) (k : Nat) :
    raises (s.answer (.rejected (.truncated k))) .fetchAddr :=
  raises_raise s.resume .fetchAddr _

theorem raises_step_of_pc_gt {s : State} (ha : s.active = true) (hpc : 32767 < s.pc.toNat) :
    raises (step s) .fetchAddr :=
  step_of_pc_gt ha hpc ▸ raises_raise s .fetchAddr s.pc

/-! ### operands from their words -/

section Readers

variable {s : State} {k n : Nat} {r : Result}

theorem wordsFrom_eq_wordAt_cons (h : s.pc.toNat + k ≤ 32767) :
    s.mem.wordsFrom (n + 1) (s.pc.toNat + k) =
      wordAt s k :: s.mem.wordsFrom n (s.pc.toNat + k + 1) := Memory.wordsFrom_of_le s.mem n h

/-- The value operand at distance `k`: FETCH_ADDR, BAD_OPERAND, or what follows for the operand. -/
theorem withVal_of_takeVal {f : Operand → List Word → Decoded} {P : Word → Prop}
    (hr : r = s.answer (takeVal k (s.mem.wordsFrom (n + 1) (s.pc.toNat + k)) f))
    (hP : ∀ o, r = s.answer (f o (s.mem.wordsFrom n (s.pc.toNat + k + 1))) → P (s.value o)) :
    withVal s k r P := by
  constructor
  · intro hgt
    rw [hr, Memory.wordsFrom_of_gt _ _ hgt]
    exact raises_answer_truncated s k
  · intro hle
    rw [wordsFrom_eq_wordAt_cons hle] at hr
    refine ⟨fun hbad => ?_, fun hlit => ?_, fun q hq => ?_⟩
    · rw [hr, takeVal_of_invalid _ _ _ hbad]
      exact raises_raise s.resume .badOperand _
    · have hread := takeVal_word k (s.mem.wordsFrom n (s.pc.toNat + k + 1)) f
        (Operand.lit_wellFormed.mpr hlit)
      exact hP (.lit _) (hr.trans (congrArg s.answer hread))
    · have hword : Reg.word q = wordAt s k := Reg.word_eq_of_toNat hq
      have hread := takeVal_word k (s.mem.wordsFrom n (s.pc.toNat + k + 1)) f
        (o := .reg q) rfl
      exact hP (.reg q) (hr.trans (congrArg s.answer (hword ▸ hread)))

/-- The destination operand at distance `k`: FETCH_ADDR, BAD_DEST, or what follows for the
register. -/
theorem withDst_of_takeDst {f : Reg → List Word → Decoded} {P : Reg → Prop}
    (hr : r = s.answer (takeDst k (s.mem.wordsFrom (n + 1) (s.pc.toNat + k)) f))
    (hP : ∀ d, r = s.answer (f d (s.mem.wordsFrom n (s.pc.toNat + k + 1))) → P d) :
    withDst s k r P := by
  constructor
  · intro hgt
    rw [hr, Memory.wordsFrom_of_gt _ _ hgt]
    exact raises_answer_truncated s k
  · intro hle
    rw [wordsFrom_eq_wordAt_cons hle] at hr
    refine ⟨fun hbad => ?_, fun q hq => ?_⟩
    · rw [hr, takeDst_of_invalid _ _ _ hbad]
      exact raises_raise s.resume .badDest _
    · have hword : Reg.word q = wordAt s k := Reg.word_eq_of_toNat hq
      have hread := takeDst_word k q (s.mem.wordsFrom n (s.pc.toNat + k + 1)) f
      exact hP q (hr.trans (congrArg s.answer (hword ▸ hread)))

end Readers

/-! ### whole rules -/

/-- Settles O30. -/
theorem noopStepMovesThePcByOne : Obligations.NoopStepMovesThePcByOne := by
  intro s ha
  refine ⟨raises_step_of_pc_gt ha, fun hpc hop => ?_⟩
  have hstep := step_eq_answer_decodeOp ha hpc
  rw [hop] at hstep
  refine ⟨s.resume.advance 1, hstep, rfl, fun htop => ?_⟩
  have hnext : (s.resume.advance 1).pc.toNat = 32768 := by
    rw [State.advance_pc, State.resume_pc, toNat_add_ofNat (by omega), htop]
  exact ⟨hnext, raises_step_of_pc_gt rfl (by omega)⟩

/-- Settles O31. -/
theorem pushStepFollowsItsRule : Obligations.PushStepFollowsItsRule := by
  intro s ha
  refine ⟨raises_step_of_pc_gt ha, fun hpc hop => ?_⟩
  have hstep := step_eq_answer_decodeOp ha hpc
  rw [hop] at hstep
  refine withVal_of_takeVal hstep fun v hrun => ⟨fun hdepth => ?full, fun hroom => ?room⟩
  case full =>
    have hfull : s.resume.stackFull = true := State.stackFull_eq_true.mpr ⟨_, hdepth, Nat.le_refl _⟩
    rw [hrun.trans (exec_push_of_full v hfull)]
    exact raises_raise s.resume .stackFull 2
  case room =>
    have hnotFull : s.resume.stackFull = false := State.stackFull_eq_false.mpr hroom
    rw [hrun, ← s.resume_value v]
    exact exec_push_of_room v hnotFull

/-- Settles O32. -/
theorem jfStepFollowsItsRule : Obligations.JfStepFollowsItsRule := by
  intro s ha
  refine ⟨raises_step_of_pc_gt ha, fun hpc hop => ?_⟩
  have hstep := step_eq_answer_decodeOp ha hpc
  rw [hop] at hstep
  refine withVal_of_takeVal hstep fun a hrest => withVal_of_takeVal hrest fun target hrun => ?_
  rw [hrun, ← s.resume_value a, ← s.resume_value target]
  exact exec_jf_eq a target

/-- Reducing modulo 32768 is masking the low 15 bits (R144 to R146). -/
theorem mod32768_eq_and (w : Word) : mod32768 w.toNat = w &&& 32767 := by
  apply BitVec.eq_of_toNat_eq
  rw [mod32768_toNat, BitVec.toNat_and]
  exact (Nat.and_two_pow_sub_one_eq_mod w.toNat 15).symm

/-- Settles O33. -/
theorem andStepFollowsItsRule : Obligations.AndStepFollowsItsRule := by
  intro s ha
  refine ⟨raises_step_of_pc_gt ha, fun hpc hop => ?_⟩
  have hstep := step_eq_answer_decodeOp ha hpc
  rw [hop] at hstep
  refine withDst_of_takeDst hstep fun d hrest => withVal_of_takeVal hrest fun a hrest' =>
    withVal_of_takeVal hrest' fun b hrun => ?_
  rw [hrun, ← s.resume_value a, ← s.resume_value b, ← mod32768_eq_and]
  rfl

/-! ### the pseudocode: its operand loop beside the decoder's readers -/

/-- The end of the pseudocode's step: raise the failed check, or execute. -/
def pseudoFinish (s : State) (op : Nat) : (Cause × Word) ⊕ (List Word × Word) → State
  | .inl (c, w) => Pseudocode.raise s c w
  | .inr (ws, pc') => Pseudocode.execute s op ws pc'

theorem State.not_ended_of_active {s : State} (ha : s.active = true) :
    ¬(s.status = .halted ∨ s.status = .fatal) := by
  rw [← State.active_eq_false, ha]
  exact nofun

/-- The pseudocode's step past its checks of the pc and the opcode. -/
theorem pseudocode_step_eq {s : State} (ha : s.active = true) (hpc : s.pc.toNat ≤ 32767)
    (hop : (s.mem.readCell s.pc.toNat).toNat ≤ 21) :
    Pseudocode.step s = pseudoFinish s.resume (s.mem.readCell s.pc.toNat).toNat
      (Pseudocode.operands s.mem (Pseudocode.kinds (s.mem.readCell s.pc.toNat).toNat)
        (s.pc + 1) []) := by
  simp only [Pseudocode.step, if_neg (State.not_ended_of_active ha), if_neg (Nat.not_lt.mpr hpc),
    if_neg (Nat.not_lt.mpr hop)]
  rfl

section Loop

variable {m : Memory} {kd : Pseudocode.Kind} {ks : List Pseudocode.Kind} {p : Word}
  {acc : List Word}

theorem operands_of_gt (h : 32767 < p.toNat) :
    Pseudocode.operands m (kd :: ks) p acc = .inl (.fetchAddr, p) := by
  simp [Pseudocode.operands, h]

theorem operands_V_of_invalid (h : p.toNat ≤ 32767) (hw : 32776 ≤ (m.readCell p.toNat).toNat) :
    Pseudocode.operands m (.V :: ks) p acc = .inl (.badOperand, m.readCell p.toNat) := by
  simp [Pseudocode.operands, Nat.not_lt.mpr h, Nat.not_le.mpr hw]

theorem operands_D_of_invalid (h : p.toNat ≤ 32767)
    (hw : (m.readCell p.toNat).toNat ≤ 32767 ∨ 32776 ≤ (m.readCell p.toNat).toNat) :
    Pseudocode.operands m (.D :: ks) p acc = .inl (.badDest, m.readCell p.toNat) := by
  have hnot : ¬(32768 ≤ (m.readCell p.toNat).toNat ∧ (m.readCell p.toNat).toNat ≤ 32775) := by omega
  simp [Pseudocode.operands, Nat.not_lt.mpr h, hnot]

theorem operands_V_of_word (h : p.toNat ≤ 32767) {o : Operand} (ho : o.wellFormed = true)
    (hw : o.word = m.readCell p.toNat) :
    Pseudocode.operands m (.V :: ks) p acc =
      Pseudocode.operands m ks (p + 1) (acc ++ [o.word]) := by
  have hle : (m.readCell p.toNat).toNat ≤ 32775 := by
    by_contra hgt
    have hnone := Operand.ofWord?_eq_none.mpr (Nat.lt_of_not_le hgt)
    rw [← hw, Operand.ofWord?_word ho] at hnone
    cases hnone
  simp [Pseudocode.operands, Nat.not_lt.mpr h, hle, hw]

theorem operands_D_of_word (h : p.toNat ≤ 32767) {d : Reg} (hw : Reg.word d = m.readCell p.toNat) :
    Pseudocode.operands m (.D :: ks) p acc =
      Pseudocode.operands m ks (p + 1) (acc ++ [Reg.word d]) := by
  have hd := d.isLt
  have hnat : (m.readCell p.toNat).toNat = 32768 + d.val := by rw [← hw, Reg.word_toNat]
  have hrange : 32768 ≤ (m.readCell p.toNat).toNat ∧ (m.readCell p.toNat).toNat ≤ 32775 := by omega
  simp [Pseudocode.operands, Nat.not_lt.mpr h, hrange, hw]

end Loop

section Simulation

variable {s : State} {k n op : Nat} {ks : List Pseudocode.Kind} {acc : List Word}

/-- The loop agrees with the decoder that goes on as `c`, from distance `k` on. -/
def LoopAgrees (s : State) (op k : Nat) (ks : List Pseudocode.Kind) (acc : List Word)
    (c : Decoded) : Prop :=
  s.answer c = .next (pseudoFinish s.resume op
    (Pseudocode.operands s.mem ks (s.pc + BitVec.ofNat 16 k) acc))

theorem pc_add_succ (p : Word) (k : Nat) :
    p + BitVec.ofNat 16 k + 1 = p + BitVec.ofNat 16 (k + 1) := by
  rw [BitVec.add_assoc, BitVec.ofNat_add]
  rfl

/-- A value operand: both fetch, check and go on alike. -/
theorem loopAgrees_takeVal {f : Operand → List Word → Decoded} (hk : s.pc.toNat + k < 65536)
    (hf : ∀ o, o.wellFormed = true →
      LoopAgrees s op (k + 1) ks (acc ++ [o.word]) (f o (s.mem.wordsFrom n (s.pc.toNat + k + 1)))) :
    LoopAgrees s op k (.V :: ks) acc (takeVal k (s.mem.wordsFrom (n + 1) (s.pc.toNat + k)) f) := by
  have hp := toNat_add_ofNat hk
  unfold LoopAgrees
  by_cases hle : s.pc.toNat + k ≤ 32767
  · rw [Memory.wordsFrom_of_le _ _ hle]
    rcases Operand.word_cases (s.mem.readCell (s.pc.toNat + k)) with hbad | ⟨o, ho, hw⟩
    · rw [takeVal_of_invalid _ _ _ hbad, operands_V_of_invalid (by omega) (by rwa [hp]), hp]
      rfl
    · rw [operands_V_of_word (by omega) ho (by rwa [hp]), pc_add_succ, ← hw, takeVal_word _ _ _ ho]
      exact hf o ho
  · rw [Memory.wordsFrom_of_gt _ _ (by omega), operands_of_gt (by omega)]
    rfl

/-- A destination operand: both fetch, check and go on alike. -/
theorem loopAgrees_takeDst {f : Reg → List Word → Decoded} (hk : s.pc.toNat + k < 65536)
    (hf : ∀ d, LoopAgrees s op (k + 1) ks (acc ++ [Reg.word d])
      (f d (s.mem.wordsFrom n (s.pc.toNat + k + 1)))) :
    LoopAgrees s op k (.D :: ks) acc (takeDst k (s.mem.wordsFrom (n + 1) (s.pc.toNat + k)) f) := by
  have hp := toNat_add_ofNat hk
  unfold LoopAgrees
  by_cases hle : s.pc.toNat + k ≤ 32767
  · rw [Memory.wordsFrom_of_le _ _ hle]
    rcases Reg.word_cases (s.mem.readCell (s.pc.toNat + k)) with hbad | ⟨d, hw⟩
    · rw [takeDst_of_invalid _ _ _ hbad, operands_D_of_invalid (by omega) (by rwa [hp]), hp]
      rfl
    · rw [operands_D_of_word (by omega) (by rwa [hp]), pc_add_succ, ← hw, takeDst_word]
      exact hf d
  · rw [Memory.wordsFrom_of_gt _ _ (by omega), operands_of_gt (by omega)]
    rfl

end Simulation

/-! ### the pseudocode: its execution beside exec -/

theorem regOf_word (d : Reg) : Pseudocode.regOf (Reg.word d) = d := by
  revert d; decide

theorem val_word (s : State) {o : Operand} (ho : o.wellFormed = true) :
    Pseudocode.val s o.word = s.value o := by
  cases o with
  | lit n => exact if_pos (Operand.lit_wellFormed.mp ho)
  | reg r =>
    have hgt : ¬(Reg.word r).toNat ≤ 32767 := by rw [Reg.word_toNat]; omega
    rw [Operand.word_reg, Pseudocode.val, if_neg hgt, regOf_word]
    rfl

/-- `w[7:0]` (R170). -/
theorem lowByte_eq_setWidth (w : Word) : lowByte w = w.setWidth 8 := by
  apply BitVec.eq_of_toNat_eq
  rw [lowByte, BitVec.toNat_setWidth, BitVec.toNat_ofNat]
  omega

/-- The pseudocode's execution of an instruction, from its words. -/
def pseudoExecute (i : Instr) (s : State) : State :=
  Pseudocode.execute s i.opcode.toNat i.operandWords
    (s.pc + BitVec.ofNat 16 (i.operandWords.length + 1))

/-- The pseudocode's check of STACK_DEPTH before it goes on to `t` (R26). -/
def pseudoBounded (s : State) (op : Word) (t : State) : State :=
  match s.params.stackDepth with
  | none => t
  | some n => if n ≤ s.stack.length then s.raise .stackFull op else t

theorem pushThen_eq_bounded (s : State) (op v : Word) (k : State → State) :
    s.pushThen op v k = .next (pseudoBounded s op (k (s.setStack (v :: s.stack)))) := by
  unfold pseudoBounded State.pushThen State.stackFull
  cases s.params.stackDepth with
  | none => rfl
  | some n => by_cases h : n ≤ s.stack.length <;> simp [h, State.fatal]

/-- A row that writes a function of two value operands to its destination. -/
theorem exec_eq_pseudo_of_row {s : State} {i : Instr} {d : Reg} {a b : Operand}
    (f : Word → Word → Word) (ha : a.wellFormed = true) (hb : b.wellFormed = true)
    (hexec : exec i s = s.finishReg d (f (s.value a) (s.value b)) 4)
    (hrow : pseudoExecute i s = (s.setReg (Pseudocode.regOf (Reg.word d))
      (f (Pseudocode.val s a.word) (Pseudocode.val s b.word))).advance 4) :
    exec i s = .next (pseudoExecute i s) := by
  rw [hexec, hrow, regOf_word, val_word s ha, val_word s hb]
  rfl

/-- A row whose next state depends on the value of one operand. -/
theorem exec_eq_pseudo_of_value {s : State} {i : Instr} {a : Operand} (f : Word → State)
    (ha : a.wellFormed = true) (hexec : exec i s = .next (f (s.value a)))
    (hrow : pseudoExecute i s = f (Pseudocode.val s a.word)) :
    exec i s = .next (pseudoExecute i s) := by
  rw [hexec, hrow, val_word s ha]

section Rows

variable {s : State} (d : Reg)

theorem pseudoExecute_pop_of_nil (h : s.stack = []) :
    pseudoExecute (.pop d) s = s.raise .stackEmpty 3 := by
  cases s; cases h; rfl

theorem pseudoExecute_pop_of_cons {v : Word} {rest : List Word} (h : s.stack = v :: rest) :
    pseudoExecute (.pop d) s =
      ((s.setStack rest).setReg (Pseudocode.regOf (Reg.word d)) v).advance 2 := by
  cases s; cases h; rfl

theorem pseudoExecute_ret_of_nil (h : s.stack = []) :
    pseudoExecute .ret s = (s.setStatus .halted).advance 1 := by
  cases s; cases h; rfl

theorem pseudoExecute_ret_of_cons {v : Word} {rest : List Word} (h : s.stack = v :: rest) :
    pseudoExecute .ret s = (s.setStack rest).setPc v := by
  cases s; cases h; rfl

theorem pseudoExecute_inp_of_cons {w : Word} {rest : List Word} (h : s.input = w :: rest) :
    pseudoExecute (.inp d) s =
      ((s.setInput rest).setReg (Pseudocode.regOf (Reg.word d)) w).advance 2 := by
  cases s; cases h; rfl

theorem pseudoExecute_inp_of_closed (h : s.input = []) (hc : s.inputClosed = true) :
    pseudoExecute (.inp d) s = s.raise .inputClosed 20 := by
  cases s; cases h; cases hc; rfl

theorem pseudoExecute_inp_of_open (h : s.input = []) (hc : s.inputClosed = false) :
    pseudoExecute (.inp d) s = s.setStatus .awaitingInput := by
  cases s; cases h; cases hc; rfl

end Rows

/-- The rules' pseudocode says of every instruction what exec does. -/
theorem exec_eq_pseudoExecute {i : Instr} (hwf : i.wellFormed = true) (s : State) :
    exec i s = .next (pseudoExecute i s) := by
  cases i with
  | halt => rfl
  | noop => rfl
  | eq d a b =>
    obtain ⟨ha, hb⟩ := Bool.and_eq_true_iff.mp hwf
    refine exec_eq_pseudo_of_row (fun a b => if a = b then 1 else 0) ha hb ?_ rfl
    rw [← boolWord_eqTest]
    rfl
  | gt d a b =>
    obtain ⟨ha, hb⟩ := Bool.and_eq_true_iff.mp hwf
    refine exec_eq_pseudo_of_row (fun a b => if b.toNat < a.toNat then 1 else 0) ha hb ?_ rfl
    rw [← boolWord_gtTest]
    rfl
  | add d a b =>
    obtain ⟨ha, hb⟩ := Bool.and_eq_true_iff.mp hwf
    exact exec_eq_pseudo_of_row aluAdd ha hb rfl rfl
  | mult d a b =>
    obtain ⟨ha, hb⟩ := Bool.and_eq_true_iff.mp hwf
    exact exec_eq_pseudo_of_row aluMult ha hb rfl rfl
  | and d a b =>
    obtain ⟨ha, hb⟩ := Bool.and_eq_true_iff.mp hwf
    refine exec_eq_pseudo_of_row (fun a b => (a &&& b) &&& 32767) ha hb ?_ rfl
    rw [← mod32768_eq_and]
    rfl
  | or d a b =>
    obtain ⟨ha, hb⟩ := Bool.and_eq_true_iff.mp hwf
    refine exec_eq_pseudo_of_row (fun a b => (a ||| b) &&& 32767) ha hb ?_ rfl
    rw [← mod32768_eq_and]
    rfl
  | mod d a b =>
    obtain ⟨ha, hb⟩ := Bool.and_eq_true_iff.mp hwf
    have hrow : pseudoExecute (.mod d a b) s =
        if Pseudocode.val s b.word = 0 then s.raise .divZero b.word
        else (s.setReg (Pseudocode.regOf (Reg.word d))
          (aluMod (Pseudocode.val s a.word) (Pseudocode.val s b.word))).advance 4 := rfl
    rw [hrow, regOf_word, val_word s ha, val_word s hb]
    by_cases hzero : s.value b = 0
    · rw [if_pos hzero, exec_mod_of_zero d a hzero]
    · rw [if_neg hzero, exec_mod_of_ne_zero d a hzero]
  | set d v =>
    refine exec_eq_pseudo_of_value
      (fun w => (s.setReg (Pseudocode.regOf (Reg.word d)) w).advance 3) hwf ?_ rfl
    rw [regOf_word]
    rfl
  | not d a =>
    refine exec_eq_pseudo_of_value
      (fun w => (s.setReg (Pseudocode.regOf (Reg.word d)) (~~~w &&& 32767)).advance 3) hwf ?_ rfl
    rw [regOf_word, ← mod32768_eq_and, ← aluNot_eq]
    rfl
  | rmem d a =>
    have hrow : pseudoExecute (.rmem d a) s =
        if 32767 < (Pseudocode.val s a.word).toNat then s.raise .memAddr (Pseudocode.val s a.word)
        else (s.setReg (Pseudocode.regOf (Reg.word d))
          (s.mem.readCell (Pseudocode.val s a.word).toNat)).advance 3 := rfl
    rw [hrow, regOf_word, val_word s hwf]
    by_cases haddr : 32767 < (s.value a).toNat
    · rw [if_pos haddr, exec_rmem_of_gt d haddr]
    · rw [if_neg haddr, exec_rmem_of_le d (Nat.not_lt.mp haddr)]
  | wmem a v =>
    obtain ⟨ha, hv⟩ := Bool.and_eq_true_iff.mp hwf
    have hrow : pseudoExecute (.wmem a v) s =
        if 32767 < (Pseudocode.val s a.word).toNat then s.raise .memAddr (Pseudocode.val s a.word)
        else (s.setMem (s.mem.writeCell (Pseudocode.val s a.word).toNat
          (Pseudocode.val s v.word))).advance 3 := rfl
    rw [hrow, val_word s ha, val_word s hv]
    by_cases haddr : 32767 < (s.value a).toNat
    · rw [if_pos haddr, exec_wmem_of_gt v haddr]
    · rw [if_neg haddr, exec_wmem_of_le v (Nat.not_lt.mp haddr)]
  | jmp v => exact exec_eq_pseudo_of_value (fun w => s.setPc w) hwf rfl rfl
  | jt a v =>
    obtain ⟨ha, hv⟩ := Bool.and_eq_true_iff.mp hwf
    have hrow : pseudoExecute (.jt a v) s =
        if Pseudocode.val s a.word ≠ 0 then s.setPc (Pseudocode.val s v.word)
        else s.advance 3 := rfl
    rw [hrow, val_word s ha, val_word s hv]
    rcases execJt_cases a v s with ⟨hzero, hexec⟩ | ⟨hzero, hexec⟩
    · rw [if_pos hzero, ← hexec]
      rfl
    · rw [if_neg (not_not.mpr hzero), ← hexec]
      rfl
  | jf a v =>
    obtain ⟨ha, hv⟩ := Bool.and_eq_true_iff.mp hwf
    have hrow : pseudoExecute (.jf a v) s =
        if Pseudocode.val s a.word = 0 then s.setPc (Pseudocode.val s v.word)
        else s.advance 3 := rfl
    rw [hrow, val_word s ha, val_word s hv]
    rcases execJf_cases a v s with ⟨hzero, hexec⟩ | ⟨hzero, hexec⟩
    · rw [if_neg hzero, ← hexec]
      rfl
    · rw [if_pos hzero, ← hexec]
      rfl
  | push v =>
    exact exec_eq_pseudo_of_value
      (fun w => pseudoBounded s 2 ((s.setStack (w :: s.stack)).advance 2)) hwf
      (pushThen_eq_bounded s 2 _ fun t => t.advance 2) rfl
  | call v =>
    exact exec_eq_pseudo_of_value
      (fun w => pseudoBounded s 17 ((s.setStack ((s.pc + 2) :: s.stack)).setPc w)) hwf
      (pushThen_eq_bounded s 17 _ fun t => t.setPc _) rfl
  | out v =>
    refine exec_eq_pseudo_of_value (fun w => (s.emit (w.setWidth 8)).advance 2) hwf ?_ rfl
    rw [← lowByte_eq_setWidth]
    rfl
  | pop d =>
    cases hstack : s.stack with
    | nil => rw [exec_pop_of_nil d hstack, pseudoExecute_pop_of_nil d hstack]
    | cons v rest => rw [exec_pop_of_cons d hstack, pseudoExecute_pop_of_cons d hstack, regOf_word]
  | ret =>
    cases hstack : s.stack with
    | nil => rw [exec_ret_of_stack_nil hstack, pseudoExecute_ret_of_nil hstack, exec_halt]
    | cons v rest => rw [exec_ret_of_cons hstack, pseudoExecute_ret_of_cons hstack]
  | inp d =>
    cases hinput : s.input with
    | cons w rest => 
      rw [exec_inp_of_cons d hinput, pseudoExecute_inp_of_cons d hinput, regOf_word]
    | nil =>
      cases hclosed : s.inputClosed with
      | true =>
        rw [exec_inp_of_closed d hinput hclosed, pseudoExecute_inp_of_closed d hinput hclosed]
      | false =>
        rw [exec_inp_of_open d hinput hclosed, pseudoExecute_inp_of_open d hinput hclosed]

/-! ### the pseudocode's step -/

section Formats

variable {s : State} {op : Nat}

/-- After the operands of an instruction both execute it. -/
theorem loopAgrees_instr {i : Instr} {rest : List Word} (hwf : i.wellFormed = true)
    (hop : i.opcode.toNat = op) :
    LoopAgrees s op (i.operandWords.length + 1) [] i.operandWords (.instr i rest) := by
  subst hop
  exact exec_eq_pseudoExecute hwf s.resume

theorem loopAgrees_decodeFV (hpc : s.pc.toNat ≤ 32767) {mk : Operand → Instr}
    (hmk : ∀ v rest, v.wellFormed = true → LoopAgrees s op 2 [] [v.word] (.instr (mk v) rest)) :
    LoopAgrees s op 1 [.V] [] (decodeFV (s.mem.wordsFrom 3 (s.pc.toNat + 1)) mk) :=
  loopAgrees_takeVal (by omega) fun v hv => hmk v _ hv

theorem loopAgrees_decodeFD (hpc : s.pc.toNat ≤ 32767) {mk : Reg → Instr}
    (hmk : ∀ d rest, LoopAgrees s op 2 [] [Reg.word d] (.instr (mk d) rest)) :
    LoopAgrees s op 1 [.D] [] (decodeFD (s.mem.wordsFrom 3 (s.pc.toNat + 1)) mk) :=
  loopAgrees_takeDst (by omega) fun d => hmk d _

theorem loopAgrees_decodeFDV (hpc : s.pc.toNat ≤ 32767) {mk : Reg → Operand → Instr}
    (hmk : ∀ d v rest, v.wellFormed = true →
      LoopAgrees s op 3 [] [Reg.word d, v.word] (.instr (mk d v) rest)) :
    LoopAgrees s op 1 [.D, .V] [] (decodeFDV (s.mem.wordsFrom 3 (s.pc.toNat + 1)) mk) :=
  loopAgrees_takeDst (by omega) fun d => loopAgrees_takeVal (by omega) fun v hv => hmk d v _ hv

theorem loopAgrees_decodeFVV (hpc : s.pc.toNat ≤ 32767) {mk : Operand → Operand → Instr}
    (hmk : ∀ a b rest, a.wellFormed = true → b.wellFormed = true →
      LoopAgrees s op 3 [] [a.word, b.word] (.instr (mk a b) rest)) :
    LoopAgrees s op 1 [.V, .V] [] (decodeFVV (s.mem.wordsFrom 3 (s.pc.toNat + 1)) mk) :=
  loopAgrees_takeVal (by omega) fun a ha => loopAgrees_takeVal (by omega) fun b hb =>
    hmk a b _ ha hb

theorem loopAgrees_decodeFDVV (hpc : s.pc.toNat ≤ 32767) {mk : Reg → Operand → Operand → Instr}
    (hmk : ∀ d a b rest, a.wellFormed = true → b.wellFormed = true →
      LoopAgrees s op 4 [] [Reg.word d, a.word, b.word] (.instr (mk d a b) rest)) :
    LoopAgrees s op 1 [.D, .V, .V] [] (decodeFDVV (s.mem.wordsFrom 3 (s.pc.toNat + 1)) mk) :=
  loopAgrees_takeDst (by omega) fun d => loopAgrees_takeVal (by omega) fun a ha =>
    loopAgrees_takeVal (by omega) fun b hb => hmk d a b _ ha hb

/-- The loop with R81's kinds agrees with the decoder's opcode map. The cases are grouped by format;
`h_1` is opcode 0. -/
theorem loopAgrees_decodeOp (hpc : s.pc.toNat ≤ 32767) {op : Word} (hop : op.toNat ≤ 21) :
    LoopAgrees s op.toNat 1 (Pseudocode.kinds op.toNat) []
      (decodeOp op (s.mem.wordsFrom 3 (s.pc.toNat + 1))) := by
  unfold decodeOp
  split
  case h_1 h | h_19 h | h_22 h => rw [h]; exact loopAgrees_instr rfl rfl
  case h_3 h | h_7 h | h_18 h | h_20 h =>
    rw [h]; exact loopAgrees_decodeFV hpc fun _ _ hv => loopAgrees_instr hv rfl
  case h_4 h | h_21 h =>
    rw [h]; exact loopAgrees_decodeFD hpc fun _ _ => loopAgrees_instr rfl rfl
  case h_2 h | h_15 h | h_16 h =>
    rw [h]; exact loopAgrees_decodeFDV hpc fun _ _ _ hv => loopAgrees_instr hv rfl
  case h_8 h | h_9 h | h_17 h =>
    rw [h]
    exact loopAgrees_decodeFVV hpc fun _ _ _ ha hb =>
      loopAgrees_instr (Bool.and_eq_true_iff.mpr ⟨ha, hb⟩) rfl
  case h_5 h | h_6 h | h_10 h | h_11 h | h_12 h | h_13 h | h_14 h =>
    rw [h]
    exact loopAgrees_decodeFDVV hpc fun _ _ _ _ ha hb =>
      loopAgrees_instr (Bool.and_eq_true_iff.mpr ⟨ha, hb⟩) rfl
  case h_23 => simp only [imp_false] at *; omega

end Formats

theorem pseudocode_step_of_pc_gt {s : State} (ha : s.active = true) (hpc : 32767 < s.pc.toNat) :
    Pseudocode.step s = s.raise .fetchAddr s.pc := by
  simp only [Pseudocode.step, if_neg (State.not_ended_of_active ha), if_pos hpc]
  rfl

theorem pseudocode_step_of_op_gt {s : State} (ha : s.active = true) (hpc : s.pc.toNat ≤ 32767)
    (hop : 21 < (s.mem.readCell s.pc.toNat).toNat) :
    Pseudocode.step s = s.resume.raise .badOpcode (s.mem.readCell s.pc.toNat) := by
  simp only [Pseudocode.step, if_neg (State.not_ended_of_active ha), if_neg (Nat.not_lt.mpr hpc),
    if_pos hop]
  rfl

/-- Settles O9: ended, the pc above memory, an invalid opcode word, or the loop and the execution.
-/
theorem stepFollowsThePseudocode : Obligations.StepFollowsThePseudocode := by
  intro s
  by_cases hended : s.status = .halted ∨ s.status = .fatal
  · rw [step_of_terminal hended, Pseudocode.step, if_pos hended]
  have ha : s.active = true := by
    rw [← Bool.not_eq_false, State.active_eq_false]
    exact hended
  by_cases hpc : 32767 < s.pc.toNat
  · rw [step_of_pc_gt ha hpc, pseudocode_step_of_pc_gt ha hpc]
  have hle : s.pc.toNat ≤ 32767 := Nat.not_lt.mp hpc
  rw [step_eq_answer_decodeOp ha hle]
  by_cases hop : 21 < (s.mem.readCell s.pc.toNat).toNat
  · rw [decodeOp_of_gt hop, pseudocode_step_of_op_gt ha hle hop]
    rfl
  · rw [pseudocode_step_eq ha hle (Nat.not_lt.mp hop)]
    exact loopAgrees_decodeOp hle (Nat.not_lt.mp hop)

end Sys2Proof.Machine
end

section
/-! PROOFS. What an instruction can do, as data: `effect` says which one of eleven kinds of effect
an instruction has on a state, `exec` answers the state after that effect, and every statement
about all instructions follows by cases on the kind. -/

namespace Sys2Proof.Machine

open Sys2Proof.Claims

/-- The kinds of effect an instruction can have. -/
inductive Effect where
  /-- `x[d] <- v`, and past the `n` words -/
  | write (d : Reg) (v : Word) (n : Nat)
  /-- nothing but the pc -/
  | goto (target : Word)
  /-- a normal end -/
  | halt
  /-- `v` on top of the stack, and the pc to `target` -/
  | push (v target : Word)
  /-- the top entry into a register -/
  | pop (d : Reg) (v : Word) (rest : List Word)
  /-- the top entry into the pc -/
  | ret (v : Word) (rest : List Word)
  /-- a word into a cell -/
  | store (a : Nat) (v : Word)
  /-- a byte to the output stream -/
  | emit (c : Byte)
  /-- the front word of the supply into a register -/
  | take (d : Reg) (w : Word) (rest : List Word)
  /-- nothing but the status, AwaitingInput -/
  | wait
  /-- a fatal error -/
  | raise (c : Cause) (w : Word)

/-- The state after an effect. -/
def Effect.apply (s : State) : Effect → State
  | .write d v n => (s.setReg d v).advance n
  | .goto target => s.setPc target
  | .halt => (s.setStatus .halted).advance 1
  | .push v target => (s.setStack (v :: s.stack)).setPc target
  | .pop d v rest => ((s.setStack rest).setReg d v).advance 2
  | .ret v rest => (s.setStack rest).setPc v
  | .store a v => (s.setMem (s.mem.writeCell a v)).advance 3
  | .emit c => (s.emit c).advance 2
  | .take d w rest => ((s.setInput rest).setReg d w).advance 2
  | .wait => s.setStatus .awaitingInput
  | .raise c w => s.raise c w

/-- The effect of an instruction on a state. -/
def effect (i : Instr) (s : State) : Effect :=
  match i with
  | .halt => .halt
  | .set d v => .write d (s.value v) 3
  | .push v => if s.stackFull then .raise .stackFull 2 else .push (s.value v) (s.pc + 2)
  | .pop d =>
    match s.stack with
    | [] => .raise .stackEmpty 3
    | v :: rest => .pop d v rest
  | .eq d a b => .write d (boolWord (eqTest (s.value a) (s.value b))) 4
  | .gt d a b => .write d (boolWord (gtTest (s.value a) (s.value b))) 4
  | .jmp v => .goto (s.value v)
  | .jt a v => .goto (if s.value a = 0 then s.pc + 3 else s.value v)
  | .jf a v => .goto (if s.value a = 0 then s.value v else s.pc + 3)
  | .add d a b => .write d (aluAdd (s.value a) (s.value b)) 4
  | .mult d a b => .write d (aluMult (s.value a) (s.value b)) 4
  | .mod d a b =>
    if s.value b = 0 then .raise .divZero b.word
    else .write d (aluMod (s.value a) (s.value b)) 4
  | .and d a b => .write d (aluAnd (s.value a) (s.value b)) 4
  | .or d a b => .write d (aluOr (s.value a) (s.value b)) 4
  | .not d a => .write d (aluNot (s.value a)) 3
  | .rmem d a =>
    if (s.value a).toNat ≤ 32767 then .write d (s.mem.readCell (s.value a).toNat) 3
    else .raise .memAddr (s.value a)
  | .wmem a v =>
    if (s.value a).toNat ≤ 32767 then .store (s.value a).toNat (s.value v)
    else .raise .memAddr (s.value a)
  | .call v => if s.stackFull then .raise .stackFull 17 else .push (s.pc + 2) (s.value v)
  | .ret =>
    match s.stack with
    | [] => .halt
    | v :: rest => .ret v rest
  | .out v => .emit (lowByte (s.value v))
  | .inp d =>
    match s.input with
    | w :: rest => .take d w rest
    | [] => if s.inputClosed then .raise .inputClosed 20 else .wait
  | .noop => .goto (s.pc + 1)

/-- Every instruction answers the state after its effect. -/
theorem exec_eq_apply (i : Instr) (s : State) : exec i s = .next ((effect i s).apply s) := by
  cases i with
  | halt | set | eq | gt | jmp | add | mult | and | or | not | out | noop => rfl
  | jt a v => exact exec_jt_eq a v
  | jf a v => exact exec_jf_eq a v
  | push v =>
    cases h : s.stackFull
    · simp [effect, h, exec_push_of_room v h, Effect.apply, State.advance]
    · simp [effect, h, exec_push_of_full v h, Effect.apply]
  | call v =>
    cases h : s.stackFull
    · simp [effect, h, exec_call_of_room v h, Effect.apply]
    · simp [effect, h, exec_call_of_full v h, Effect.apply]
  | mod d a b =>
    by_cases h : s.value b = 0
    · simp only [effect, if_pos h, exec_mod_of_zero d a h, Effect.apply]
    · simp only [effect, if_neg h, exec_mod_of_ne_zero d a h, Effect.apply]
  | rmem d a =>
    by_cases h : (s.value a).toNat ≤ 32767
    · simp [effect, h, exec_rmem_of_le d h, Effect.apply]
    · simp [effect, h, exec_rmem_of_gt d (Nat.not_le.mp h), Effect.apply]
  | wmem a v =>
    by_cases h : (s.value a).toNat ≤ 32767
    · simp [effect, h, exec_wmem_of_le v h, Effect.apply]
    · simp [effect, h, exec_wmem_of_gt v (Nat.not_le.mp h), Effect.apply]
  | pop d =>
    cases h : s.stack with
    | nil => simp [effect, h, exec_pop_of_nil d h, Effect.apply]
    | cons v rest => simp [effect, h, exec_pop_of_cons d h, Effect.apply]
  | ret =>
    cases h : s.stack with
    | nil => simp [effect, h, exec_ret_of_stack_nil h, exec_halt, Effect.apply]
    | cons v rest => simp [effect, h, exec_ret_of_cons h, Effect.apply]
  | inp d =>
    cases h : s.input with
    | cons w rest => simp [effect, h, exec_inp_of_cons d h, Effect.apply]
    | nil =>
      cases hc : s.inputClosed
      · simp [effect, h, hc, exec_inp_of_open d h hc, Effect.apply]
      · simp [effect, h, hc, exec_inp_of_closed d h hc, Effect.apply]

theorem exec_eq_next_iff {i : Instr} {s t : State} :
    exec i s = .next t ↔ t = (effect i s).apply s := by
  rw [exec_eq_apply, Host.Outcome.next.injEq, eq_comm]

theorem step_of_not_active {s : State} (ha : s.active = false) : step s = .next s :=
  step_of_terminal (State.active_eq_false.mp ha)

/-- Settles O10: an ended run answers its own state, an active one the state an effect or a rejected
fetch leaves. -/
theorem everyStepAnswersAState : Obligations.EveryStepAnswersAState := by
  have hexec (i : Instr) (s : State) : ∃ t, exec i s = .next t := ⟨_, exec_eq_apply i s⟩
  refine ⟨fun s => ?_, hexec⟩
  cases ha : s.active with
  | false => exact ⟨s, step_of_not_active ha⟩
  | true =>
    rw [step_eq_answer ha]
    cases s.fetch with
    | instr i _ => exact hexec i s.resume
    | rejected e => exact ⟨_, rfl⟩

/-! ### which instruction has which effect, and when -/

/-- What an effect says of the instruction that has it and of the state it has it on. -/
def Effect.Fits (i : Instr) (s : State) : Effect → Prop
  | .write d _ _ => dest? i = some d
  | .goto _ => True
  | .halt => i = .halt ∨ i = .ret
  | .push v _ => s.stackFull = false ∧
      ((∃ o, i = .push o ∧ v = s.value o) ∨ ∃ o, i = .call o ∧ v = s.pc + 2)
  | .pop d v rest => i = .pop d ∧ s.stack = v :: rest
  | .ret v rest => i = .ret ∧ s.stack = v :: rest
  | .store a _ => (∃ o v, i = .wmem o v) ∧ a ≤ 32767
  | .emit c => ∃ o, i = .out o ∧ c = lowByte (s.value o)
  | .take d w rest => i = .inp d ∧ s.input = w :: rest
  | .wait => (∃ d, i = .inp d) ∧ s.input = [] ∧ s.inputClosed = false
  | .raise c _ => executeCause i = some c

theorem effect_fits (i : Instr) (s : State) : (effect i s).Fits i s := by
  cases i with
  | set | eq | gt | add | mult | and | or | not => rfl
  | jmp | jt | jf | noop => trivial
  | halt => exact .inl rfl
  | out v => exact ⟨v, rfl, rfl⟩
  | push v => cases h : s.stackFull <;> simp [effect, h, Effect.Fits, executeCause]
  | call v => cases h : s.stackFull <;> simp [effect, h, Effect.Fits, executeCause]
  | mod d a b =>
    by_cases h : s.value b = 0
    · simp only [effect, if_pos h]
      rfl
    · simp only [effect, if_neg h]
      rfl
  | rmem d a =>
    by_cases h : (s.value a).toNat ≤ 32767 <;> simp [effect, h, Effect.Fits, executeCause, dest?]
  | wmem a v =>
    by_cases h : (s.value a).toNat ≤ 32767 <;> simp [effect, h, Effect.Fits, executeCause]
  | pop d => cases h : s.stack <;> simp [effect, h, Effect.Fits, executeCause]
  | ret => cases h : s.stack <;> simp [effect, h, Effect.Fits]
  | inp d =>
    cases h : s.input with
    | cons w rest => simp [effect, h, Effect.Fits]
    | nil => cases hc : s.inputClosed <;> simp [effect, h, hc, Effect.Fits, executeCause]

/-- No instruction raises the cause 0. -/
theorem executeCause_ne_none (i : Instr) : executeCause i ≠ some .none := by
  cases i <;> simp [executeCause]

/-- Everything an instruction can do: an effect that fits it. -/
theorem exec_cases {i : Instr} {s t : State} (h : exec i s = .next t) :
    ∃ e : Effect, e.Fits i s ∧ t = e.apply s :=
  ⟨effect i s, effect_fits i s, exec_eq_next_iff.mp h⟩

/-- Everything a step can do: nothing in an ended run; else the effect of what was fetched, or
raise why nothing was. -/
theorem step_effect_cases {s t : State} (h : step s = .next t) :
    (s.active = false ∧ t = s) ∨
    (s.active = true ∧ ∃ i rest, ∃ e : Effect, s.fetch = .instr i rest ∧ e.Fits i s.resume ∧
      t = e.apply s.resume) ∨
    (s.active = true ∧ ∃ c w, t = s.raise c w ∧ c ≠ .none) := by
  cases ha : s.active with
  | false => exact .inl ⟨rfl, (Host.Outcome.next.inj ((step_of_not_active ha).symm.trans h)).symm⟩
  | true =>
    rcases step_cases ha h with ⟨i, rest, hfetch, hexec⟩ | ⟨e, -, rfl⟩
    · obtain ⟨e, hfit, rfl⟩ := exec_cases hexec
      exact .inr (.inl ⟨rfl, i, rest, e, hfetch, hfit, rfl⟩)
    · obtain ⟨c, w, hraise, hc⟩ := s.resume.raiseDecode_eq_raise e
      exact .inr (.inr ⟨rfl, c, w, hraise, hc⟩)

end Sys2Proof.Machine
end

section
/-! PROOFS. What each instruction touches (10_state.md sections 1, 3 and 7, 20_memory.md section
1): one case for each kind of effect. -/

namespace Sys2Proof.Machine

open Sys2Proof.Claims

/-! ### one run -/

/-- Settles O42: three kinds of effect write a register, and it is the destination. -/
theorem onlyTheDestinationRegisterIsWritten : Obligations.OnlyTheDestinationRegisterIsWritten := by
  intro i s t hexec r hr
  obtain ⟨e, hfit, rfl⟩ := exec_cases hexec
  cases e with
  | write d v n =>
    have hne : r ≠ d := fun h => hr (h ▸ hfit)
    exact s.setReg_reg_of_ne v hne
  | pop d v rest =>
    obtain ⟨rfl, -⟩ := hfit
    have hne : r ≠ d := fun h => hr (h ▸ rfl)
    exact (s.setStack rest).setReg_reg_of_ne v hne
  | take d w rest =>
    obtain ⟨rfl, -⟩ := hfit
    have hne : r ≠ d := fun h => hr (h ▸ rfl)
    exact (s.setInput rest).setReg_reg_of_ne w hne
  | goto | halt | push | ret | store | emit | wait | raise => rfl

/-- Settles O45. -/
theorem theStackMovesOnlyAtItsTop : Obligations.TheStackMovesOnlyAtItsTop := by
  intro i s t hexec
  obtain ⟨e, hfit, rfl⟩ := exec_cases hexec
  cases e with
  | push v target =>
    obtain ⟨-, ⟨o, rfl, rfl⟩ | ⟨o, rfl, rfl⟩⟩ := hfit
    · exact .inr (.inl (.inl ⟨o, rfl, rfl⟩))
    · exact .inr (.inl (.inr ⟨o, rfl, rfl⟩))
  | pop d v rest =>
    obtain ⟨rfl, hstack⟩ := hfit
    exact .inr (.inr ⟨.inl ⟨d, rfl⟩, v, hstack⟩)
  | ret v rest =>
    obtain ⟨rfl, hstack⟩ := hfit
    exact .inr (.inr ⟨.inr rfl, v, hstack⟩)
  | write | goto | halt | store | emit | take | wait | raise => exact .inl rfl

theorem Effect.apply_params (e : Effect) (s : State) : (e.apply s).params = s.params := by
  cases e <;> rfl

theorem Effect.apply_inputClosed (e : Effect) (s : State) :
    (e.apply s).inputClosed = s.inputClosed := by
  cases e <;> rfl

/-- Settles O46. -/
theorem portsMoveOnlyByInAndOut : Obligations.PortsMoveOnlyByInAndOut := by
  intro i s t hexec
  obtain ⟨e, hfit, rfl⟩ := exec_cases hexec
  refine ⟨?output, ?input, e.apply_inputClosed s, e.apply_params s⟩
  case output =>
    cases e with
    | emit c =>
      obtain ⟨o, rfl, rfl⟩ := hfit
      exact .inr ⟨o, rfl, rfl⟩
    | write | goto | halt | push | pop | ret | store | take | wait | raise => exact .inl rfl
  case input =>
    cases e with
    | take d w rest =>
      obtain ⟨rfl, hinput⟩ := hfit
      exact .inr ⟨d, w, rfl, hinput, (s.setInput rest).setReg_reg_self d w⟩
    | write | goto | halt | push | pop | ret | store | emit | wait | raise => exact .inl rfl

/-- Every effect but a store leaves memory. -/
theorem Effect.apply_mem {e : Effect} (s : State) (h : ∀ a v, e ≠ .store a v) :
    (e.apply s).mem = s.mem := by
  cases e with
  | store a v => exact absurd rfl (h a v)
  | write | goto | halt | push | pop | ret | emit | take | wait | raise => rfl

/-- Only `wmem` has a store as its effect. -/
theorem Effect.ne_store_of_fits {e : Effect} {i : Instr} {s : State} (hfit : e.Fits i s)
    (hi : ∀ a v, i ≠ .wmem a v) (a : Nat) (v : Word) : e ≠ .store a v := by
  rintro rfl
  obtain ⟨⟨o, v, rfl⟩, -⟩ := hfit
  exact hi o v rfl

/-- Settles O20. -/
theorem memoryIsWrittenByWmemAlone : Obligations.MemoryIsWrittenByWmemAlone := by
  refine ⟨fun a v s hwf ha => ?_, fun a v s ha => ?_, fun i s t hi hexec k => ?_⟩
  · exact ⟨_, exec_wmem_of_le v ha, Memory.readCell_writeCell_self hwf ha _,
      fun _ hc => Memory.readCell_writeCell_of_ne s.mem _ hc,
      fun _ h0 h1 => Memory.readByte_writeCell_of_ne s.mem _ h0 h1,
      rfl, fun _ => rfl, rfl, ⟨rfl, rfl⟩, rfl, rfl, rfl, rfl⟩
  · have hexec := exec_wmem_of_gt v ha
    refine ⟨hexec ▸ raises_raise s .memAddr _, fun t ht k => ?_⟩
    obtain rfl := Host.Outcome.next.inj (hexec.symm.trans ht)
    rfl
  · obtain ⟨e, hfit, rfl⟩ := exec_cases hexec
    rw [Effect.apply_mem s (Effect.ne_store_of_fits hfit hi)]

/-! ### two runs -/

/-- What the effect of an instruction depends on: the values of its operands, the pc, the stack and
its depth, the supply, and for `rmem` its cell. -/
theorem effect_congr {i : Instr} {s s' : State}
    (hval : ∀ o ∈ values i, s'.value o = s.value o) (hpc : s'.pc = s.pc)
    (hstack : s'.stack = s.stack) (hparams : s'.params = s.params) (hinput : s'.input = s.input)
    (hclosed : s'.inputClosed = s.inputClosed)
    (hcell : ∀ d a, i = .rmem d a →
      s'.mem.readCell (s.value a).toNat = s.mem.readCell (s.value a).toNat) :
    effect i s' = effect i s := by
  have hfull : s'.stackFull = s.stackFull := by simp only [State.stackFull, hstack, hparams]
  cases i with
  | halt => rfl
  | noop => simp only [effect, hpc]
  | pop | ret => simp only [effect, hstack]
  | inp => simp only [effect, hinput, hclosed]
  | set _ v | jmp v | out v | not _ v => simp only [effect, hval v (by simp [values])]
  | push v | call v => simp only [effect, hval v (by simp [values]), hpc, hfull]
  | rmem d a => simp only [effect, hval a (by simp [values]), hcell d a rfl]
  | eq _ a b | gt _ a b | add _ a b | mult _ a b | mod _ a b | and _ a b | or _ a b | wmem a b =>
    simp only [effect, hval a (by simp [values]), hval b (by simp [values])]
  | jt a v | jf a v => simp only [effect, hval a (by simp [values]), hval v (by simp [values]), hpc]

/-- Every effect but a store is the same on any memory. -/
theorem Effect.apply_setMem {e : Effect} (s : State) (m : Memory) (h : ∀ a v, e ≠ .store a v) :
    e.apply (s.setMem m) = (e.apply s).setMem m := by
  cases e with
  | store a v => exact absurd rfl (h a v)
  | write | goto | halt | push | pop | ret | emit | take | wait | raise => rfl

/-- Settles O44: with the other memory the effect is the same one, and it is no store. -/
theorem onlyRmemAndWmemTouchMemory : Obligations.OnlyRmemAndWmemTouchMemory := by
  intro i s t m hi hcell hexec
  obtain rfl := exec_eq_next_iff.mp hexec
  have hstore := Effect.ne_store_of_fits (effect_fits i s) hi
  have heffect : effect i (s.setMem m) = effect i s :=
    effect_congr (fun o _ => s.setMem_value m o) rfl rfl rfl rfl rfl hcell
  refine ⟨Effect.apply_mem s hstore, ?_⟩
  rw [exec_eq_apply, heffect, Effect.apply_setMem s m hstore]

/-- The state with another register file. -/
def State.setRegs (s : State) (f : RegFile) : State := { s with regs := f }

/-- An effect on another register file: the same but for the registers, and each of these is left in
both runs or gets the same value in both. -/
theorem Effect.apply_setRegs (e : Effect) (s : State) (f : RegFile) :
    e.apply (s.setRegs f) = (e.apply s).setRegs (e.apply (s.setRegs f)).regs ∧
      ∀ r, ((e.apply (s.setRegs f)).reg r = f.get r ∧ (e.apply s).reg r = s.reg r) ∨
        (e.apply (s.setRegs f)).reg r = (e.apply s).reg r := by
  have hput (d : Reg) (v : Word) (r : Reg) : ((f.put d v).get r = f.get r ∧
      (s.regs.put d v).get r = s.regs.get r) ∨ (f.put d v).get r = (s.regs.put d v).get r := by
    by_cases h : r = d
    · exact .inr (by simp [h])
    · exact .inl (by simp [h])
  cases e with
  | write d v _ | pop d v _ | take d v _ => exact ⟨rfl, hput d v⟩
  | goto | halt | push | ret | store | emit | wait | raise => exact ⟨rfl, fun r => .inl ⟨rfl, rfl⟩⟩

/-- Settles O43: the values of the operands agree, so the effect is the same one. -/
theorem onlyValueOperandsReadRegisters : Obligations.OnlyValueOperandsReadRegisters := by
  intro i s t f hf hexec
  obtain rfl := exec_eq_next_iff.mp hexec
  have hval : ∀ o ∈ values i, (s.setRegs f).value o = s.value o := by
    intro o ho
    cases o with
    | lit n => rfl
    | reg r => exact hf r ho
  have heffect : effect i (s.setRegs f) = effect i s :=
    effect_congr hval rfl rfl rfl rfl rfl fun _ _ _ => rfl
  obtain ⟨hsame, hregs⟩ := (effect i s).apply_setRegs s f
  exact ⟨_, heffect ▸ exec_eq_apply i (s.setRegs f), hsame, hregs⟩

end Sys2Proof.Machine
end

section
/-! PROOFS. Word-cleanness (10_state.md R38): the words an effect brings in from outside the
registers and the stack, or computes, are Words, with the rule's exceptions. -/

namespace Sys2Proof.Machine

theorem isWord_iff {w : Word} : isWord w = true ↔ w.toNat ≤ 32767 := decide_eq_true_iff

theorem isWord_boolWord (b : Bool) : isWord (boolWord b) = true := by
  cases b <;> rfl

theorem isWord_mod32768 (n : Nat) : isWord (mod32768 n) = true :=
  isWord_iff.mpr (Nat.le_of_lt_succ (mod32768_toNat_lt n))

/-- A remainder is a Word where the dividend is one. -/
theorem isWord_aluMod {a : Word} (b : Word) (h : isWord a = true) : isWord (aluMod a b) = true := by
  rw [isWord_iff] at h ⊢
  rw [aluMod_toNat]
  exact Nat.le_trans (Nat.mod_le _ _) h

/-- In a Word-clean state the value of a well-formed operand is a Word. -/
theorem State.isWord_value {s : State} (hclean : s.wordClean) {o : Operand}
    (ho : o.wellFormed = true) : isWord (s.value o) = true := by
  cases o with
  | lit n => exact ho
  | reg r => exact hclean.1 r

theorem State.wordClean_setReg {s : State} (hclean : s.wordClean) (d : Reg) {v : Word}
    (hv : isWord v = true) : (s.setReg d v).wordClean := by
  refine ⟨fun r => ?_, hclean.2⟩
  by_cases h : r = d
  · rw [h, State.setReg_reg_self]
    exact hv
  · rw [State.setReg_reg_of_ne s v h]
    exact hclean.1 r

theorem State.wordClean_setStack {s : State} (hclean : s.wordClean) {l : List Word}
    (hl : ∀ w ∈ l, isWord w = true) : (s.setStack l).wordClean := ⟨hclean.1, hl⟩

/-- The word an effect brings into a register or onto the stack. -/
def Effect.word? : Effect → Option Word
  | .write _ v _ => some v
  | .push v _ => some v
  | .take _ w _ => some w
  | .goto _ => none
  | .halt => none
  | .pop _ _ _ => none
  | .ret _ _ => none
  | .store _ _ => none
  | .emit _ => none
  | .wait => none
  | .raise _ _ => none

/-- An effect that brings in a Word or none keeps the state Word-clean. -/
theorem Effect.apply_wordClean {e : Effect} {i : Instr} {s : State} (hfit : e.Fits i s)
    (hclean : s.wordClean) (hword : ∀ w ∈ e.word?, isWord w = true) : (e.apply s).wordClean := by
  cases e with
  | write d v n => exact State.wordClean_setReg hclean d (hword v rfl)
  | push v target =>
    refine State.wordClean_setStack hclean fun w hw => ?_
    rcases List.mem_cons.mp hw with rfl | hw
    · exact hword w rfl
    · exact hclean.2 w hw
  | pop d v rest =>
    obtain ⟨-, hstack⟩ := hfit
    have hall : ∀ w ∈ v :: rest, isWord w = true := hstack ▸ hclean.2
    exact State.wordClean_setReg
      (State.wordClean_setStack hclean fun w hw => hall w (List.mem_cons_of_mem v hw)) d
      (hall v List.mem_cons_self)
  | ret v rest =>
    obtain ⟨-, hstack⟩ := hfit
    exact State.wordClean_setStack hclean fun w hw =>
      hclean.2 w (hstack ▸ List.mem_cons_of_mem v hw)
  | take d w rest => exact State.wordClean_setReg (s := s.setInput rest) hclean d (hword w rfl)
  | goto | halt | store | emit | wait | raise => exact hclean

/-- The word an instruction brings in is a Word, but for the three exceptions. -/
theorem isWord_effect_word {i : Instr} {s : State} (hwf : i.wellFormed = true)
    (hclean : s.wordClean)
    (hrmem : ∀ d a, i = .rmem d a → isWord (s.mem.readCell (s.value a).toNat) = true)
    (hinp : ∀ d, i = .inp d → ∀ w ∈ s.input.head?, isWord w = true)
    (hcall : ∀ v, i = .call v → isWord (s.pc + 2) = true) :
    ∀ w ∈ (effect i s).word?, isWord w = true := by
  intro w hw
  cases i with
  | set _ v => cases hw; exact State.isWord_value hclean hwf
  | eq | gt => cases hw; exact isWord_boolWord _
  | add | mult | and | or | not => cases hw; exact isWord_mod32768 _
  | mod _ a b =>
    simp only [effect] at hw
    split at hw
    · cases hw
    · cases hw; exact isWord_aluMod _ (State.isWord_value hclean (Bool.and_eq_true_iff.mp hwf).1)
  | rmem d a =>
    simp only [effect] at hw
    split at hw
    · cases hw; exact hrmem d a rfl
    · cases hw
  | push v =>
    simp only [effect] at hw
    split at hw
    · cases hw
    · cases hw; exact State.isWord_value hclean hwf
  | call v =>
    simp only [effect] at hw
    split at hw
    · cases hw
    · cases hw; exact hcall v rfl
  | inp d =>
    cases hinput : s.input with
    | nil =>
      simp only [effect, hinput] at hw
      split at hw <;> cases hw
    | cons front rest =>
      simp only [effect, hinput] at hw
      cases hw
      exact hinp d rfl w (by rw [hinput]; rfl)
  | pop | ret | wmem =>
    simp only [effect] at hw
    split at hw <;> cases hw
  | halt | noop | jmp | jt | jf | out => cases hw

/-- Settles O52. -/
theorem instructionsKeepWordCleanness : Obligations.InstructionsKeepWordCleanness := by
  intro i s t hwf hclean hexec hrmem hinp hcall
  obtain rfl := exec_eq_next_iff.mp hexec
  exact Effect.apply_wordClean (effect_fits i s) hclean
    (isWord_effect_word hwf hclean hrmem hinp hcall)

end Sys2Proof.Machine
end

section
/-! PROOFS. How a step can end (10_state.md section 4, 60_exceptions.md section 3): in a fatal
error, in AwaitingInput, or in a state that stays as it is. -/

namespace Sys2Proof.Machine

/-! ### ended states -/

/-- A state that a step leaves as it is stays so for any number of steps. -/
theorem run_of_step_self {s : State} (h : step s = .next s) (n : Nat) :
    Sys2Proof.core.run n s = .next s := by
  induction n with
  | zero => rfl
  | succ n ih => rw [run_succ_of_step h, ih]

theorem State.ended_iff {s : State} : s.ended = true ↔ s.active = false := by
  rw [State.ended, Bool.not_eq_true']

/-- Settles O38. -/
theorem endedRunsStayAsTheyAre : Obligations.EndedRunsStayAsTheyAre := by
  intro n s hended
  exact run_of_step_self (step_of_not_active (State.ended_iff.mp hended)) n

/-! ### fatal errors -/

/-- From a state that is not Fatal only a raise leads to Fatal. -/
theorem Effect.eq_raise_of_fatal {e : Effect} {s : State} (hs : s.status ≠ .fatal)
    (h : (e.apply s).status = .fatal) : ∃ c w, e = .raise c w := by
  cases e with
  | raise c w => exact ⟨c, w, rfl⟩
  | halt | wait => cases h
  | write | goto | push | pop | ret | store | emit | take => exact absurd h hs

/-- The causes of a rejected fetch (60_exceptions.md R202, the first columns). -/
theorem raiseDecode_cause_mem (s : State) (e : DecodeError) :
    (s.raiseDecode e).fault.cause ∈
      [Cause.badOpcode, .badOperand, .badDest, .fetchAddr] := by
  cases e <;> simp [State.raiseDecode]

/-- Settles O37. -/
theorem everyFatalStepHasOneCause : Obligations.EveryFatalStepHasOneCause := by
  intro s t ha hstep hfatal
  rcases step_cases ha hstep with ⟨i, rest, hfetch, hexec⟩ | ⟨e, hfetch, rfl⟩
  · obtain ⟨e, hfit, rfl⟩ := exec_cases hexec
    obtain ⟨c, w, rfl⟩ := Effect.eq_raise_of_fatal (by simp) hfatal
    exact .inr ⟨i, rest, hfetch, hfit⟩
  · exact .inl ⟨e, hfetch, rfl, raiseDecode_cause_mem s.resume e⟩

/-- A step that ends in Fatal raises a cause on the state it started from. -/
theorem step_eq_raise_of_fatal {s t : State} (ha : s.active = true) (hstep : step s = .next t)
    (hfatal : t.status = .fatal) : ∃ c w, t = s.raise c w ∧ c ≠ .none := by
  rcases step_effect_cases hstep with ⟨hended, -⟩ | ⟨-, i, rest, e, -, hfit, rfl⟩ | ⟨-, hraise⟩
  · cases hended.symm.trans ha
  · obtain ⟨c, w, rfl⟩ := Effect.eq_raise_of_fatal (by simp) hfatal
    exact ⟨c, w, rfl, fun hnone => executeCause_ne_none i (hnone ▸ hfit)⟩
  · exact hraise

/-- Settles O35. -/
theorem fatalErrorsArePrecise : Obligations.FatalErrorsArePrecise := by
  intro s t ha hstep hfatal
  obtain ⟨c, w, rfl, hc⟩ := step_eq_raise_of_fatal ha hstep hfatal
  exact ⟨rfl, rfl, hc⟩

/-- Settles O36. -/
theorem fatalErrorsTransferControlNowhere : Obligations.FatalErrorsTransferControlNowhere := by
  intro s t ha hstep hfatal
  obtain ⟨c, w, rfl, -⟩ := step_eq_raise_of_fatal ha hstep hfatal
  exact ⟨rfl, rfl, fun _ => rfl, fun _ => rfl, run_of_step_self (step_of_terminal (.inr rfl))⟩

/-! ### waiting for input -/

/-- From a state that is not AwaitingInput only a wait leads there. -/
theorem Effect.eq_wait_of_awaiting {e : Effect} {s : State} (hs : s.status ≠ .awaitingInput)
    (h : (e.apply s).status = .awaitingInput) : e = .wait := by
  cases e with
  | wait => rfl
  | halt | raise => cases h
  | write | goto | push | pop | ret | store | emit | take => exact absurd h hs

/-- A step that ends in AwaitingInput fetched an `in`, found no word and an open source, and changed
the status alone. -/
theorem step_awaiting_cases {s t : State} (hstep : step s = .next t)
    (hwait : t.status = .awaitingInput) :
    ∃ d rest, s.fetch = .instr (.inp d) rest ∧ s.input = [] ∧ s.inputClosed = false ∧
      t = s.setStatus .awaitingInput := by
  rcases step_effect_cases hstep with
    ⟨hended, rfl⟩ | ⟨-, i, rest, e, hfetch, hfit, rfl⟩ | ⟨-, c, w, rfl, -⟩
  · simp [State.active, hwait] at hended
  · obtain rfl := Effect.eq_wait_of_awaiting (by simp) hwait
    obtain ⟨⟨d, rfl⟩, hinput, hclosed⟩ := hfit
    exact ⟨d, rest, hfetch, hinput, hclosed, rfl⟩
  · cases hwait

/-- The opcode word of a fetched instruction stands at the pc. -/
theorem State.readCell_pc_of_fetched {s : State} {i : Instr} {rest : List Word}
    (h : s.fetch = .instr i rest) : s.mem.readCell s.pc.toNat = i.opcode := by
  by_cases hpc : s.pc.toNat ≤ 32767
  · rw [State.fetch_of_le hpc] at h
    obtain ⟨-, hop, -⟩ := decodeOp_eq_instr h
    exact hop
  · rw [State.fetch_of_gt (Nat.not_le.mp hpc)] at h
    cases h

/-- Settles O40. -/
theorem awaitingInputIsAnAbortedIn : Obligations.AwaitingInputIsAnAbortedIn := by
  intro s t hstep hwait
  obtain ⟨d, rest, hfetch, hinput, hclosed, rfl⟩ := step_awaiting_cases hstep hwait
  exact ⟨rfl, State.readCell_pc_of_fetched hfetch, hinput, hclosed⟩

/-- Settles O41: the waiting state fetches the same `in`, before and after the supply. -/
theorem abortedInIsRetriedFromScratch : Obligations.AbortedInIsRetriedFromScratch := by
  intro s t _ hstep hwait
  obtain ⟨d, rest, hfetch, hinput, hclosed, rfl⟩ := step_awaiting_cases hstep hwait
  refine ⟨run_of_step_self ?again, fun w ws u hsupply => ?_⟩
  case again =>
    rw [step_of_fetched (s := s.setStatus .awaitingInput) rfl hfetch]
    exact exec_inp_of_open d hinput hclosed
  have hu : u = (s.setStatus .awaitingInput).setInput (w :: ws) := by
    simpa [envMove, hclosed, hinput, eq_comm] using hsupply
  subst hu
  have hfetch' : ((s.setStatus .awaitingInput).setInput (w :: ws)).fetch = .instr (.inp d) rest :=
    hfetch
  refine ⟨_, d, (step_of_fetched rfl hfetch').trans (exec_inp_of_cons d rfl), rfl, ?_, rfl, rfl⟩
  rw [State.advance_reg, State.setReg_reg_self]

/-! ### a store and the next fetch -/

/-- The step of a `wmem` whose words stand at the pc and whose address is one of a cell. -/
theorem step_of_wmem_holds {a v : Operand} {s : State} (ha : s.active = true)
    (hwf : (Instr.wmem a v).wellFormed = true)
    (hholds : s.mem.holds s.pc.toNat (encode (.wmem a v))) (haddr : (s.value a).toNat ≤ 32767) :
    ∃ t, step s = .next t ∧ t.mem = s.mem.writeCell (s.value a).toNat (s.value v) ∧
      t.pc.toNat = s.pc.toNat + 3 ∧ t.active = true := by
  obtain ⟨rest, hfetch⟩ := State.fetch_of_holds hwf hholds
  have hpc := (thePcDoesNotWrap s _ rest hfetch).2
  have haddr' : (s.resume.value a).toNat ≤ 32767 := (s.resume_value a).symm ▸ haddr
  refine ⟨_, (step_of_fetched ha hfetch).trans (exec_wmem_of_le v haddr'), ?_, hpc, rfl⟩
  rw [State.advance_mem, State.setMem_mem, State.resume_value, State.resume_value,
    State.resume_mem]

/-- Settles O47: the step depends on the store only through the memory and the pc it leaves. -/
theorem aStoreIsSeenByTheNextFetch : Obligations.AStoreIsSeenByTheNextFetch := by
  intro a v s hmem ha hwf hholds haddr
  obtain ⟨t, hstep, htmem, htpc, hta⟩ := step_of_wmem_holds ha hwf hholds haddr
  have hcell : t.mem.readCell (s.value a).toNat = s.value v := by
    rw [htmem, Memory.readCell_writeCell_self hmem haddr]
  refine ⟨t, hstep, htpc, fun p k hk hp => ?window, fun hnext => ?next⟩
  case window =>
    have hword := t.mem.getElem?_wordsFrom (a := p.toNat) hk (by omega)
    rw [hp, hcell] at hword
    exact hword
  case next =>
    have hle : t.pc.toNat ≤ 32767 := by omega
    have hop : t.mem.readCell t.pc.toNat = s.value v := by rw [htpc, ← hnext, hcell]
    refine ⟨fun hbad => ?_, fun hzero => ?_⟩
    · obtain ⟨u, hu, hfatal, hcause, -⟩ := invalidOpcodeWordsAreFatal t _ hta hle hop hbad
      exact ⟨u, hu, hfatal, hcause⟩
    · have hhalt := step_eq_answer_decodeOp hta hle
      rw [hop, hzero] at hhalt
      exact ⟨_, hhalt, rfl⟩

end Sys2Proof.Machine
end

section
/-! PROOFS. The invariant (10_state.md sections 3 to 5, 20_memory.md section 1, 47_io.md section
3): a reset meets it, every effect and every environment move keeps it. -/

namespace Sys2Proof.Machine

open Sys2Proof.Claims

theorem State.stackOk_iff {s : State} :
    s.stackOk = true ↔ ∀ n, s.params.stackDepth = some n → s.stack.length ≤ n := by
  unfold State.stackOk
  cases s.params.stackDepth <;> simp

theorem State.inputOk_iff {s : State} :
    s.inputOk = true ↔ (s.inputClosed = true → s.input = []) := by
  unfold State.inputOk
  cases s.inputClosed <;> simp

/-- A reset that completes meets the invariant. -/
theorem State.inv_of_boot {p : Config.Params} {image : List Byte} {input : List Word}
    {closed : Bool} {s : State} (h : State.boot p image input closed = some s) : s.inv = true := by
  obtain ⟨⟨-, hlength, hclosed⟩, rfl⟩ := State.boot_eq_some h
  exact State.inv_iff.mpr ⟨Memory.wf_ofBytes hlength, rfl,
    State.stackOk_iff.mpr fun _ _ => Nat.zero_le _, State.inputOk_iff.mpr hclosed⟩

/-- `State.reset` is the reset with the empty image (log 30). -/
theorem boot_nil : State.boot Config.Params.suggested [] [] false = some State.reset := rfl

/-- Settles O48. -/
theorem resetMeetsTheInvariant : Obligations.ResetMeetsTheInvariant := State.inv_of_boot boot_nil

/-! ### steps -/

/-- Raising a cause keeps the invariant. -/
theorem State.inv_raise {s : State} (hinv : s.inv = true) {c : Cause} (hc : c ≠ .none) (w : Word) :
    (s.raise c w).inv = true := by
  obtain ⟨hmem, -, hstack, hinput⟩ := State.inv_iff.mp hinv
  refine State.inv_iff.mpr ⟨hmem, ?_, hstack, hinput⟩
  simp [State.faultOk, hc]

/-- Resuming keeps the invariant: the fault record is the same in both active statuses. -/
theorem State.inv_resume {s : State} (hinv : s.inv = true) (ha : s.active = true) :
    s.resume.inv = true := by
  obtain ⟨hmem, hfault, hstack, hinput⟩ := State.inv_iff.mp hinv
  have hlive : s.status ≠ .fatal := fun h => State.not_ended_of_active ha (.inr h)
  have hrecord := (State.faultOk_iff_of_not_fatal hlive).mp hfault
  exact State.inv_iff.mpr
    ⟨hmem, (State.faultOk_iff_of_not_fatal (by simp)).mpr hrecord, hstack, hinput⟩

theorem State.stackOk_of_le {s t : State} (hs : s.stackOk = true) (hparams : t.params = s.params)
    (hle : t.stack.length ≤ s.stack.length) : t.stackOk = true :=
  State.stackOk_iff.mpr fun n hn =>
    Nat.le_trans hle (State.stackOk_iff.mp hs n (hparams ▸ hn))

/-- Every effect of an instruction on a running state keeps the invariant. -/
theorem Effect.apply_inv {e : Effect} {i : Instr} {s : State} (hfit : e.Fits i s)
    (hinv : s.inv = true) (hrun : s.status = .running) : (e.apply s).inv = true := by
  obtain ⟨hmem, hfault, hstack, hinput⟩ := State.inv_iff.mp hinv
  have hrecord := (State.faultOk_iff_of_not_fatal (by simp [hrun])).mp hfault
  have hkept {t : State} (hstatus : t.status ≠ .fatal) (ht : t.fault = s.fault) :
      t.faultOk = true := (State.faultOk_iff_of_not_fatal hstatus).mpr (ht.trans hrecord)
  have hlive : s.status ≠ .fatal := by simp [hrun]
  cases e with
  | raise c w =>
    exact State.inv_raise hinv (fun hnone => executeCause_ne_none i (hnone ▸ hfit)) w
  | push v target =>
    refine State.inv_iff.mpr ⟨hmem, hkept hlive rfl, ?_, hinput⟩
    exact State.stackOk_iff.mpr (State.stackFull_eq_false.mp hfit.1)
  | pop d v rest =>
    refine State.inv_iff.mpr ⟨hmem, hkept hlive rfl, ?_, hinput⟩
    exact State.stackOk_of_le hstack rfl (hfit.2 ▸ Nat.le_succ rest.length)
  | ret v rest =>
    refine State.inv_iff.mpr ⟨hmem, hkept hlive rfl, ?_, hinput⟩
    exact State.stackOk_of_le hstack rfl (hfit.2 ▸ Nat.le_succ rest.length)
  | store a v =>
    exact State.inv_iff.mpr
      ⟨Memory.wf_writeCell hmem hfit.2 v, hkept hlive rfl, hstack, hinput⟩
  | take d w rest =>
    refine State.inv_iff.mpr ⟨hmem, hkept hlive rfl, hstack, ?_⟩
    refine State.inputOk_iff.mpr fun hclosed => ?_
    have hnil := State.inputOk_iff.mp hinput hclosed
    cases hfit.2.symm.trans hnil
  | halt => exact State.inv_iff.mpr ⟨hmem, hkept nofun rfl, hstack, hinput⟩
  | wait => exact State.inv_iff.mpr ⟨hmem, hkept nofun rfl, hstack, hinput⟩
  | write | goto | emit =>
    exact State.inv_iff.mpr ⟨hmem, hkept hlive rfl, hstack, hinput⟩

/-- Settles O49. -/
theorem stepsKeepTheInvariant : Obligations.StepsKeepTheInvariant := by
  intro s t hinv hstep
  rcases step_effect_cases hstep with
    ⟨-, rfl⟩ | ⟨ha, i, rest, e, -, hfit, rfl⟩ | ⟨-, c, w, rfl, hc⟩
  · exact hinv
  · exact Effect.apply_inv hfit (State.inv_resume hinv ha) rfl
  · exact State.inv_raise hinv hc w

/-- No step changes the parameters. -/
theorem step_params {s t : State} (hstep : step s = .next t) : t.params = s.params := by
  rcases step_effect_cases hstep with
    ⟨-, rfl⟩ | ⟨-, i, rest, e, -, -, rfl⟩ | ⟨-, c, w, rfl, -⟩
  · rfl
  · exact e.apply_params s.resume
  · rfl

/-! ### the moves of the environment -/

/-- Everything a debug access can leave: the state, one register written, or one cell (R217 to
R222). -/
theorem debugAnswer_cases (a : DebugAccess) (s : State) :
    (debugAnswer a s).2 = s ∨ (∃ q v, (debugAnswer a s).2 = s.setReg q v) ∨
      ∃ c v, c ≤ 32767 ∧ (debugAnswer a s).2 = s.setMem (s.mem.writeCell c v) := by
  cases a with
  | readRegs | readCode | resume => exact .inl rfl
  | readCell c =>
    simp only [debugAnswer]
    split <;> exact .inl rfl
  | writeReg i v =>
    simp only [debugAnswer]
    split
    · split
      · exact .inr (.inl ⟨_, _, rfl⟩)
      · exact .inl rfl
    · exact .inl rfl
  | writeCell c v =>
    simp only [debugAnswer]
    split
    · next h => exact .inr (.inr ⟨c, _, h.1, rfl⟩)
    · exact .inl rfl

/-- Everything a debug access that takes place did. -/
theorem debugAccess_eq_some {a : DebugAccess} {s t : State} {r : DebugReply}
    (h : debugAccess a s = some (r, t)) : s.debuggable = true ∧ debugAnswer a s = (r, t) := by
  unfold debugAccess at h
  split at h
  · next hport => exact ⟨hport, Option.some.inj h⟩
  · cases h

/-- A debug access keeps the invariant. -/
theorem debugAnswer_inv (a : DebugAccess) {s : State} (hinv : s.inv = true) :
    (debugAnswer a s).2.inv = true := by
  obtain ⟨hmem, hfault, hstack, hinput⟩ := State.inv_iff.mp hinv
  rcases debugAnswer_cases a s with h | ⟨q, v, h⟩ | ⟨c, v, hc, h⟩ <;> rw [h]
  · exact hinv
  · exact State.inv_iff.mpr ⟨hmem, hfault, hstack, hinput⟩
  · exact State.inv_iff.mpr ⟨Memory.wf_writeCell hmem hc v, hfault, hstack, hinput⟩

/-- A debug access changes neither the pc, the stack, the status, the fault record nor the ports. -/
theorem debugAnswer_frame (a : DebugAccess) (s : State) :
    (debugAnswer a s).2.pc = s.pc ∧ (debugAnswer a s).2.stack = s.stack ∧
      sameStatus s (debugAnswer a s).2 ∧ samePorts s (debugAnswer a s).2 := by
  rcases debugAnswer_cases a s with h | ⟨q, v, h⟩ | ⟨c, v, -, h⟩ <;> rw [h]
  all_goals exact ⟨rfl, rfl, ⟨rfl, rfl⟩, rfl, rfl, rfl, rfl⟩

/-- Everything a move of the environment can do (R223). -/
theorem envMove_cases {e : EnvMove} {s t : State} (h : envMove e s = some t) :
    (∃ image input closed, State.boot s.params image input closed = some t) ∨
    (∃ words, s.inputClosed = false ∧ t = s.setInput (s.input ++ words)) ∨
    (s.input = [] ∧ t = { s with inputClosed := true }) ∨
    ∃ a, t = (debugAnswer a s).2 := by
  cases e with
  | reset image input closed => exact .inl ⟨image, input, closed, h⟩
  | supply words =>
    simp only [envMove] at h
    split at h
    · cases h
    · next hopen => cases h; exact .inr (.inl ⟨words, Bool.eq_false_of_not_eq_true hopen, rfl⟩)
  | closeInput =>
    simp only [envMove] at h
    split at h
    · next hempty => cases h; exact .inr (.inr (.inl ⟨hempty, rfl⟩))
    · cases h
  | debug a =>
    obtain ⟨⟨r, u⟩, haccess, rfl⟩ := Option.map_eq_some_iff.mp h
    obtain ⟨-, hanswer⟩ := debugAccess_eq_some haccess
    exact .inr (.inr (.inr ⟨a, by rw [hanswer]⟩))

/-- Settles O50. -/
theorem environmentMovesKeepTheInvariant : Obligations.EnvironmentMovesKeepTheInvariant := by
  intro s t e hinv hmove
  obtain ⟨hmem, hfault, hstack, hinput⟩ := State.inv_iff.mp hinv
  rcases envMove_cases hmove with ⟨_, _, _, hboot⟩ | ⟨words, hopen, rfl⟩ | ⟨hempty, rfl⟩ | ⟨a, rfl⟩
  · exact State.inv_of_boot hboot
  · refine State.inv_iff.mpr ⟨hmem, hfault, hstack, State.inputOk_iff.mpr fun hclosed => ?_⟩
    cases hopen.symm.trans hclosed
  · exact State.inv_iff.mpr ⟨hmem, hfault, hstack, State.inputOk_iff.mpr fun _ => hempty⟩
  · exact debugAnswer_inv a hinv

theorem State.boot_params {p : Config.Params} {image : List Byte} {input : List Word}
    {closed : Bool} {s : State} (h : State.boot p image input closed = some s) : s.params = p := by
  obtain ⟨-, rfl⟩ := State.boot_eq_some h
  rfl

/-- No move of the environment changes the parameters. -/
theorem envMove_params {e : EnvMove} {s t : State} (h : envMove e s = some t) :
    t.params = s.params := by
  rcases envMove_cases h with ⟨_, _, _, hboot⟩ | ⟨words, -, rfl⟩ | ⟨-, rfl⟩ | ⟨a, rfl⟩
  · exact State.boot_params hboot
  · rfl
  · rfl
  · obtain ⟨-, -, -, -, -, -, hparams⟩ := debugAnswer_frame a s
    exact hparams

/-- Settles O51, by induction on how the state was reached. -/
theorem reachableStatesMeetTheInvariant : Obligations.ReachableStatesMeetTheInvariant := by
  intro p s hreach
  induction hreach with
  | boot hboot => exact ⟨State.inv_of_boot hboot, State.boot_params hboot⟩
  | step _ hstep ih =>
    obtain ⟨hinv, hparams⟩ := ih
    exact ⟨stepsKeepTheInvariant _ _ hinv hstep, (step_params hstep).trans hparams⟩
  | env _ hmove ih =>
    obtain ⟨hinv, hparams⟩ := ih
    exact ⟨environmentMovesKeepTheInvariant _ _ _ hinv hmove, (envMove_params hmove).trans hparams⟩

end Sys2Proof.Machine
end

section
/-! PROOFS. Reset and the environment's ports (70_reset_and_hazards.md, 60_exceptions.md section 6,
47_io.md section 3). -/

namespace Sys2Proof.Machine

/-! ### reset -/

/-- Settles O54. -/
theorem theLoaderRefusesUnfitImages : Obligations.TheLoaderRefusesUnfitImages := by
  intro p image input closed
  constructor
  · intro hsome
    obtain ⟨s, hboot⟩ := Option.isSome_iff_exists.mp hsome
    exact (State.boot_eq_some hboot).1
  · intro hfit
    rw [State.boot, if_pos hfit]
    rfl

/-- Every register of the reset register file is 0 (R39). -/
theorem RegFile.get_zero (r : Reg) : RegFile.zero.get r = 0 := by
  revert r; decide

/-- Settles O55. -/
theorem resetLeavesItsValues : Obligations.ResetLeavesItsValues := by
  refine ⟨fun p image input closed s hboot => ?_, boot_nil, ?_⟩
  · obtain ⟨-, rfl⟩ := State.boot_eq_some hboot
    exact ⟨RegFile.get_zero, rfl, rfl, rfl, rfl, rfl, rfl, rfl, rfl⟩
  · have hfetch : State.reset.fetch = .instr .halt [0, 0, 0] := rfl
    exact ⟨_, step_of_fetched rfl hfetch, rfl, rfl⟩

/-! ### the debug port -/

/-- The port is usable with DEBUG_PORT and in an active status (R216). -/
theorem State.debuggable_iff {s : State} :
    s.debuggable = true ↔ s.params.debugPort = true ∧ s.active = true := by
  unfold State.debuggable State.active
  cases s.status <;> simp

/-- Settles O59. -/
theorem theDebugPortIsUsableOnlyInARun : Obligations.TheDebugPortIsUsableOnlyInARun := by
  intro a s
  rw [State.ended, Bool.not_eq_false', ← State.debuggable_iff]
  unfold debugAccess
  cases s.debuggable <;> simp

/-- On another stack a debug access answers the same and leaves that stack. -/
theorem debugAnswer_setStack (a : DebugAccess) (s : State) (l : List Word) :
    debugAnswer a (s.setStack l) = ((debugAnswer a s).1, (debugAnswer a s).2.setStack l) := by
  cases a with
  | readRegs | readCode | resume => rfl
  | readCell c =>
    simp only [debugAnswer]
    split <;> rfl
  | writeReg i v =>
    simp only [debugAnswer]
    split
    · split <;> rfl
    · rfl
  | writeCell c v =>
    simp only [debugAnswer]
    split <;> rfl

/-- Settles O56. -/
theorem theDebugPortOffersNothingElse : Obligations.TheDebugPortOffersNothingElse := by
  intro a s t r haccess
  obtain ⟨hport, hanswer⟩ := debugAccess_eq_some haccess
  have hstack (l : List Word) : debugAccess a (s.setStack l) = some (r, t.setStack l) := by
    rw [debugAccess_of_debuggable (s := s.setStack l) hport, debugAnswer_setStack, hanswer]
  have hresume (ha : a = .resume) : t = s := by
    subst ha
    exact (congrArg Prod.snd hanswer).symm
  obtain ⟨hpc, hstack', hstatus, hports⟩ := hanswer ▸ debugAnswer_frame a s
  exact ⟨hpc, hstack', hstatus, hports, hresume, hstack⟩

/-- Settles O58. -/
theorem debugWritesReachOneRegisterOrCell : Obligations.DebugWritesReachOneRegisterOrCell := by
  intro s i a v hport hmem
  simp only [debugAccess_of_debuggable hport, debugAnswer]
  refine ⟨?_, ?_, ?_, ?_, ?_, ?_⟩
  · rintro q rfl hv
    rw [dif_pos q.isLt, if_pos hv]
    exact ⟨_, rfl, s.setReg_reg_self q _, fun _ hr => s.setReg_reg_of_ne _ hr, fun _ => rfl⟩
  · intro ha hv
    rw [if_pos ⟨ha, hv⟩]
    exact ⟨_, rfl, Memory.readCell_writeCell hmem ha _, fun _ => rfl⟩
  · rintro (hi | hv)
    · rw [dif_neg (by omega)]
    · split
      · rw [if_neg (by omega)]
      · rfl
  · intro hbad
    rw [if_neg (by omega)]
  · intro ha
    rw [if_pos ha]
  · intro ha
    rw [if_neg (by omega)]

/-- Settles O60. -/
theorem inputIsSuppliedInOrder : Obligations.InputIsSuppliedInOrder := by
  intro s ws
  refine ⟨fun hopen => ?_, fun hclosed => ?_, fun hempty => if_pos hempty, fun hne => if_neg hne⟩
  · rw [envMove, hopen]
    rfl
  · rw [envMove, hclosed]
    rfl

end Sys2Proof.Machine
end
